-- ==== Sys2Proof/Word.lean ====
section
/-! DEFINITION. The widths of the hardware's values (00_scope.md R6, 30_encoding.md R71). -/

namespace Sys2Proof

/-- A memory cell, a general register, a timer (R6: 8 bits). -/
abbrev Byte := BitVec 8

/-- PC, I, a stack entry, an instruction word, the key snapshot (R6: 16 bits). -/
abbrev Word := BitVec 16

/-- The fields `x` and `y`: a register index 0 to 15 (R71). -/
abbrev RegIdx := BitVec 4

/-- The field `n`: a 4-bit immediate (R71). -/
abbrev Nibble := BitVec 4

/-- The field `nnn`: a 12-bit address (R71). -/
abbrev Addr12 := BitVec 12

end Sys2Proof
end

