-- ==== Sys2Proof/Syntax.lean ====
section
/-! DEFINITION. The instructions: one constructor per row of the opcode map (30_encoding.md R75). -/

namespace Sys2Proof

/-- The 35 instructions (R2, R75). Operands are the fields of R71 that the row's format names (R72). -/
inductive Instr where
  /-- Row 1, `00E0`, `CLS`. -/
  | cls
  /-- Row 2, `00EE`, `RET`. -/
  | ret
  /-- Row 3, `0NNN` other than `00E0` and `00EE`, `SYS addr` (R77). -/
  | sys (nnn : Addr12)
  /-- Row 4, `1NNN`, `JP addr`. -/
  | jp (nnn : Addr12)
  /-- Row 5, `2NNN`, `CALL addr`. -/
  | call (nnn : Addr12)
  /-- Row 6, `3XNN`, `SE Vx, byte`. -/
  | seByte (x : RegIdx) (nn : Byte)
  /-- Row 7, `4XNN`, `SNE Vx, byte`. -/
  | sneByte (x : RegIdx) (nn : Byte)
  /-- Row 8, `5XY0`, `SE Vx, Vy`. -/
  | seReg (x y : RegIdx)
  /-- Row 9, `6XNN`, `LD Vx, byte`. -/
  | ldByte (x : RegIdx) (nn : Byte)
  /-- Row 10, `7XNN`, `ADD Vx, byte`. -/
  | addByte (x : RegIdx) (nn : Byte)
  /-- Row 11, `8XY0`, `LD Vx, Vy`. -/
  | ldReg (x y : RegIdx)
  /-- Row 12, `8XY1`, `OR Vx, Vy`. -/
  | orReg (x y : RegIdx)
  /-- Row 13, `8XY2`, `AND Vx, Vy`. -/
  | andReg (x y : RegIdx)
  /-- Row 14, `8XY3`, `XOR Vx, Vy`. -/
  | xorReg (x y : RegIdx)
  /-- Row 15, `8XY4`, `ADD Vx, Vy`. -/
  | addReg (x y : RegIdx)
  /-- Row 16, `8XY5`, `SUB Vx, Vy`. -/
  | subReg (x y : RegIdx)
  /-- Row 17, `8XY6`, `SHR Vx {, Vy}`. -/
  | shr (x y : RegIdx)
  /-- Row 18, `8XY7`, `SUBN Vx, Vy`. -/
  | subnReg (x y : RegIdx)
  /-- Row 19, `8XYE`, `SHL Vx {, Vy}`. -/
  | shl (x y : RegIdx)
  /-- Row 20, `9XY0`, `SNE Vx, Vy`. -/
  | sneReg (x y : RegIdx)
  /-- Row 21, `ANNN`, `LD I, addr`. -/
  | ldI (nnn : Addr12)
  /-- Row 22, `BNNN`, `JP V0, addr`. -/
  | jpV0 (nnn : Addr12)
  /-- Row 23, `CXNN`, `RND Vx, byte`. -/
  | rnd (x : RegIdx) (nn : Byte)
  /-- Row 24, `DXYN`, `DRW Vx, Vy, nibble`. -/
  | drw (x y : RegIdx) (n : Nibble)
  /-- Row 25, `EX9E`, `SKP Vx`. -/
  | skp (x : RegIdx)
  /-- Row 26, `EXA1`, `SKNP Vx`. -/
  | sknp (x : RegIdx)
  /-- Row 27, `FX07`, `LD Vx, DT`. -/
  | ldVxDt (x : RegIdx)
  /-- Row 28, `FX0A`, `LD Vx, K`. -/
  | ldVxK (x : RegIdx)
  /-- Row 29, `FX15`, `LD DT, Vx`. -/
  | ldDtVx (x : RegIdx)
  /-- Row 30, `FX18`, `LD ST, Vx`. -/
  | ldStVx (x : RegIdx)
  /-- Row 31, `FX1E`, `ADD I, Vx`. -/
  | addI (x : RegIdx)
  /-- Row 32, `FX29`, `LD F, Vx`. -/
  | ldF (x : RegIdx)
  /-- Row 33, `FX33`, `LD B, Vx`. -/
  | ldB (x : RegIdx)
  /-- Row 34, `FX55`, `LD [I], Vx`. -/
  | ldMemVx (x : RegIdx)
  /-- Row 35, `FX65`, `LD Vx, [I]`. -/
  | ldVxMem (x : RegIdx)
deriving DecidableEq, Repr

/-- What the decoder produces (R74): a recognised instruction, or the distinguished `Unknown(word)`. -/
inductive Decoded where
  | instr (i : Instr)
  | unknown (word : Word)
deriving DecidableEq, Repr

/-- A row of the opcode map (R75): a word matches when `word & mask = value` and it is none of `except`
(the exclusion R75 and R77 give the `SYS` row alone). -/
structure OpRow where
  mask   : Word
  value  : Word
  except : List Word
deriving DecidableEq, Repr

end Sys2Proof
end

