-- ==== Sys2Proof/Decode.lean ====
section
/-! DEFINITION. The decoder (30_encoding.md R71, R74 to R77), the encoder, and the opcode map's rows (R75). -/

namespace Sys2Proof

/-- The fields of a word (R71). -/
def fieldOp (w : Word) : BitVec 4 := w.extractLsb' 12 4
/-- `x = bits 8-11` (R71). -/
def fieldX (w : Word) : RegIdx := w.extractLsb' 8 4
/-- `y = bits 4-7` (R71). -/
def fieldY (w : Word) : RegIdx := w.extractLsb' 4 4
/-- `n = bits 0-3` (R71). -/
def fieldN (w : Word) : Nibble := w.extractLsb' 0 4
/-- `nn = bits 0-7` (R71). -/
def fieldNN (w : Word) : Byte := w.extractLsb' 0 8
/-- `nnn = bits 0-11` (R71). -/
def fieldNNN (w : Word) : Addr12 := w.extractLsb' 0 12

/-- Family 0: `00E0`, `00EE`, otherwise `SYS` (R77). -/
def decodeFamily0 (w : Word) : Decoded :=
  if fieldNNN w = 0x0E0#12 then .instr .cls
  else if fieldNNN w = 0x0EE#12 then .instr .ret
  else .instr (.sys (fieldNNN w))

/-- Family 8, selected on the low nibble (R75 rows 11 to 19, D6). -/
def decodeFamily8 (w : Word) : Decoded :=
  match fieldN w with
  | 0x0#4 => .instr (.ldReg (fieldX w) (fieldY w))
  | 0x1#4 => .instr (.orReg (fieldX w) (fieldY w))
  | 0x2#4 => .instr (.andReg (fieldX w) (fieldY w))
  | 0x3#4 => .instr (.xorReg (fieldX w) (fieldY w))
  | 0x4#4 => .instr (.addReg (fieldX w) (fieldY w))
  | 0x5#4 => .instr (.subReg (fieldX w) (fieldY w))
  | 0x6#4 => .instr (.shr (fieldX w) (fieldY w))
  | 0x7#4 => .instr (.subnReg (fieldX w) (fieldY w))
  | 0xE#4 => .instr (.shl (fieldX w) (fieldY w))
  | _ => .unknown w

/-- Family E, selected on the low byte (R75 rows 25 and 26). -/
def decodeFamilyE (w : Word) : Decoded :=
  match fieldNN w with
  | 0x9E#8 => .instr (.skp (fieldX w))
  | 0xA1#8 => .instr (.sknp (fieldX w))
  | _ => .unknown w

/-- Family F, selected on the low byte (R75 rows 27 to 35). -/
def decodeFamilyF (w : Word) : Decoded :=
  match fieldNN w with
  | 0x07#8 => .instr (.ldVxDt (fieldX w))
  | 0x0A#8 => .instr (.ldVxK (fieldX w))
  | 0x15#8 => .instr (.ldDtVx (fieldX w))
  | 0x18#8 => .instr (.ldStVx (fieldX w))
  | 0x1E#8 => .instr (.addI (fieldX w))
  | 0x29#8 => .instr (.ldF (fieldX w))
  | 0x33#8 => .instr (.ldB (fieldX w))
  | 0x55#8 => .instr (.ldMemVx (fieldX w))
  | 0x65#8 => .instr (.ldVxMem (fieldX w))
  | _ => .unknown w

/-- The decoder (R74): a total function of the word alone, selecting on the top nibble. A word no row of R75 matches is
`Unknown(word)` (R76, D28, log 43). -/
def decode (w : Word) : Decoded :=
  match fieldOp w with
  | 0x0#4 => decodeFamily0 w
  | 0x1#4 => .instr (.jp (fieldNNN w))
  | 0x2#4 => .instr (.call (fieldNNN w))
  | 0x3#4 => .instr (.seByte (fieldX w) (fieldNN w))
  | 0x4#4 => .instr (.sneByte (fieldX w) (fieldNN w))
  | 0x5#4 => if fieldN w = 0x0#4 then .instr (.seReg (fieldX w) (fieldY w)) else .unknown w
  | 0x6#4 => .instr (.ldByte (fieldX w) (fieldNN w))
  | 0x7#4 => .instr (.addByte (fieldX w) (fieldNN w))
  | 0x8#4 => decodeFamily8 w
  | 0x9#4 => if fieldN w = 0x0#4 then .instr (.sneReg (fieldX w) (fieldY w)) else .unknown w
  | 0xA#4 => .instr (.ldI (fieldNNN w))
  | 0xB#4 => .instr (.jpV0 (fieldNNN w))
  | 0xC#4 => .instr (.rnd (fieldX w) (fieldNN w))
  | 0xD#4 => .instr (.drw (fieldX w) (fieldY w) (fieldN w))
  | 0xE#4 => decodeFamilyE w
  | _ => decodeFamilyF w

/-- The word of two bytes as they lie in memory: the byte at the lower address is the high one (R56, D1, log 21). -/
def wordOfBytes (first second : Byte) : Word := first ++ second

/-- The decoder on the two bytes of an instruction, in memory order. -/
def decodeBytes (first second : Byte) : Decoded := decode (wordOfBytes first second)

/-- The bits of an instruction as the opcode table numbers them, laid out in memory order: with one 16-bit word, the high
byte first (R56, R70). -/
def tableBytes (w : Nat) : Byte × Byte :=
  ((BitVec.ofNat 16 w).extractLsb' 8 8, (BitVec.ofNat 16 w).extractLsb' 0 8)

/-- The instruction the decoder reads from the opcode table's bits `w`; `none` where it answers `Unknown`. Every bit above
`nbits` is 0, and an instruction has 16 bits (R70). -/
def decodeTableWord (nbits w : Nat) : Option Instr :=
  match decodeBytes (tableBytes (w % 2 ^ nbits)).1 (tableBytes (w % 2 ^ nbits)).2 with
  | .instr i => some i
  | .unknown _ => none

/-- Format `NNN` (R72): `kNNN`. -/
def formatNNN (k : BitVec 4) (nnn : Addr12) : Word := k ++ nnn
/-- Format `XNN` (R72): `kXNN`. -/
def formatXNN (k : BitVec 4) (x : RegIdx) (nn : Byte) : Word := k ++ x ++ nn
/-- Format `XY` and `XYN` (R72): `kXYm`. -/
def formatXYN (k : BitVec 4) (x y : RegIdx) (n : Nibble) : Word := k ++ x ++ y ++ n

/-- The word of an instruction: the literal nibbles and the fields of its pattern (R72, R75). -/
def encode : Instr → Word
  | .cls => 0x00E0#16
  | .ret => 0x00EE#16
  | .sys nnn => formatNNN 0x0#4 nnn
  | .jp nnn => formatNNN 0x1#4 nnn
  | .call nnn => formatNNN 0x2#4 nnn
  | .seByte x nn => formatXNN 0x3#4 x nn
  | .sneByte x nn => formatXNN 0x4#4 x nn
  | .seReg x y => formatXYN 0x5#4 x y 0x0#4
  | .ldByte x nn => formatXNN 0x6#4 x nn
  | .addByte x nn => formatXNN 0x7#4 x nn
  | .ldReg x y => formatXYN 0x8#4 x y 0x0#4
  | .orReg x y => formatXYN 0x8#4 x y 0x1#4
  | .andReg x y => formatXYN 0x8#4 x y 0x2#4
  | .xorReg x y => formatXYN 0x8#4 x y 0x3#4
  | .addReg x y => formatXYN 0x8#4 x y 0x4#4
  | .subReg x y => formatXYN 0x8#4 x y 0x5#4
  | .shr x y => formatXYN 0x8#4 x y 0x6#4
  | .subnReg x y => formatXYN 0x8#4 x y 0x7#4
  | .shl x y => formatXYN 0x8#4 x y 0xE#4
  | .sneReg x y => formatXYN 0x9#4 x y 0x0#4
  | .ldI nnn => formatNNN 0xA#4 nnn
  | .jpV0 nnn => formatNNN 0xB#4 nnn
  | .rnd x nn => formatXNN 0xC#4 x nn
  | .drw x y n => formatXYN 0xD#4 x y n
  | .skp x => formatXNN 0xE#4 x 0x9E#8
  | .sknp x => formatXNN 0xE#4 x 0xA1#8
  | .ldVxDt x => formatXNN 0xF#4 x 0x07#8
  | .ldVxK x => formatXNN 0xF#4 x 0x0A#8
  | .ldDtVx x => formatXNN 0xF#4 x 0x15#8
  | .ldStVx x => formatXNN 0xF#4 x 0x18#8
  | .addI x => formatXNN 0xF#4 x 0x1E#8
  | .ldF x => formatXNN 0xF#4 x 0x29#8
  | .ldB x => formatXNN 0xF#4 x 0x33#8
  | .ldMemVx x => formatXNN 0xF#4 x 0x55#8
  | .ldVxMem x => formatXNN 0xF#4 x 0x65#8

/-- A word matches a row when `word & mask = match`, the excluded words apart (R75). -/
def OpRow.matchesWord (r : OpRow) (w : Word) : Bool :=
  decide (w &&& r.mask = r.value) && !r.except.contains w

/-- The row of the opcode map an instruction belongs to: R75's mask and match, column by column. -/
def Instr.opRow : Instr → OpRow
  | .cls => ⟨0xFFFF#16, 0x00E0#16, []⟩
  | .ret => ⟨0xFFFF#16, 0x00EE#16, []⟩
  | .sys _ => ⟨0xF000#16, 0x0000#16, [0x00E0#16, 0x00EE#16]⟩
  | .jp _ => ⟨0xF000#16, 0x1000#16, []⟩
  | .call _ => ⟨0xF000#16, 0x2000#16, []⟩
  | .seByte _ _ => ⟨0xF000#16, 0x3000#16, []⟩
  | .sneByte _ _ => ⟨0xF000#16, 0x4000#16, []⟩
  | .seReg _ _ => ⟨0xF00F#16, 0x5000#16, []⟩
  | .ldByte _ _ => ⟨0xF000#16, 0x6000#16, []⟩
  | .addByte _ _ => ⟨0xF000#16, 0x7000#16, []⟩
  | .ldReg _ _ => ⟨0xF00F#16, 0x8000#16, []⟩
  | .orReg _ _ => ⟨0xF00F#16, 0x8001#16, []⟩
  | .andReg _ _ => ⟨0xF00F#16, 0x8002#16, []⟩
  | .xorReg _ _ => ⟨0xF00F#16, 0x8003#16, []⟩
  | .addReg _ _ => ⟨0xF00F#16, 0x8004#16, []⟩
  | .subReg _ _ => ⟨0xF00F#16, 0x8005#16, []⟩
  | .shr _ _ => ⟨0xF00F#16, 0x8006#16, []⟩
  | .subnReg _ _ => ⟨0xF00F#16, 0x8007#16, []⟩
  | .shl _ _ => ⟨0xF00F#16, 0x800E#16, []⟩
  | .sneReg _ _ => ⟨0xF00F#16, 0x9000#16, []⟩
  | .ldI _ => ⟨0xF000#16, 0xA000#16, []⟩
  | .jpV0 _ => ⟨0xF000#16, 0xB000#16, []⟩
  | .rnd _ _ => ⟨0xF000#16, 0xC000#16, []⟩
  | .drw _ _ _ => ⟨0xF000#16, 0xD000#16, []⟩
  | .skp _ => ⟨0xF0FF#16, 0xE09E#16, []⟩
  | .sknp _ => ⟨0xF0FF#16, 0xE0A1#16, []⟩
  | .ldVxDt _ => ⟨0xF0FF#16, 0xF007#16, []⟩
  | .ldVxK _ => ⟨0xF0FF#16, 0xF00A#16, []⟩
  | .ldDtVx _ => ⟨0xF0FF#16, 0xF015#16, []⟩
  | .ldStVx _ => ⟨0xF0FF#16, 0xF018#16, []⟩
  | .addI _ => ⟨0xF0FF#16, 0xF01E#16, []⟩
  | .ldF _ => ⟨0xF0FF#16, 0xF029#16, []⟩
  | .ldB _ => ⟨0xF0FF#16, 0xF033#16, []⟩
  | .ldMemVx _ => ⟨0xF0FF#16, 0xF055#16, []⟩
  | .ldVxMem _ => ⟨0xF0FF#16, 0xF065#16, []⟩

/-- One instruction of each of rows 1 to 10 of R75, in the table's order (operands play no part in a row). -/
def rowInstrs1To10 : List Instr :=
  [.cls, .ret, .sys 0, .jp 0, .call 0, .seByte 0 0, .sneByte 0 0, .seReg 0 0, .ldByte 0 0, .addByte 0 0]
/-- Rows 11 to 19: family 8. -/
def rowInstrs11To19 : List Instr :=
  [.ldReg 0 0, .orReg 0 0, .andReg 0 0, .xorReg 0 0, .addReg 0 0, .subReg 0 0, .shr 0 0, .subnReg 0 0, .shl 0 0]
/-- Rows 20 to 26. -/
def rowInstrs20To26 : List Instr := [.sneReg 0 0, .ldI 0, .jpV0 0, .rnd 0 0, .drw 0 0 0, .skp 0, .sknp 0]
/-- Rows 27 to 35: family F. -/
def rowInstrs27To35 : List Instr :=
  [.ldVxDt 0, .ldVxK 0, .ldDtVx 0, .ldStVx 0, .addI 0, .ldF 0, .ldB 0, .ldMemVx 0, .ldVxMem 0]

/-- One instruction of each row of R75. -/
def rowInstrs : List Instr := rowInstrs1To10 ++ rowInstrs11To19 ++ rowInstrs20To26 ++ rowInstrs27To35

/-- The 35 rows of R75 in the table's order. -/
def opcodeRows : List OpRow := rowInstrs.map Instr.opRow

end Sys2Proof
end

