-- ==== Sys2Proof/Config.lean ====
section
/-! DEFINITION. What is fixed before Reset (R7, R8, R34), what the environment supplies (R9), and the values the spec leaves free. -/

namespace Sys2Proof

/-- `UNKNOWN_POLICY` (R7, R125). -/
inductive UnknownPolicy where
  | strict
  | lenient
deriving DecidableEq, Repr, Inhabited

/-- `OOB_POLICY` (R8, R54). -/
inductive OobPolicy where
  | fault
  | wrap
deriving DecidableEq, Repr, Inhabited

/-- `SHIFT_SOURCE` (R8, R168, R170). -/
inductive ShiftSource where
  | vx
  | vy
deriving DecidableEq, Repr, Inhabited

/-- `DRAW_VWRAP` (R8, R211). -/
inductive DrawVwrap where
  | wrap
  | clip
deriving DecidableEq, Repr, Inhabited

/-- `KEY_INDEX_MODE` (R8, R146); `neverPressed` is the spec's value `none`. -/
inductive KeyIndexMode where
  | neverPressed
  | mask
deriving DecidableEq, Repr, Inhabited

/-- `FX29_MODE` (R8, R192). -/
inductive Fx29Mode where
  | multiply
  | mask
deriving DecidableEq, Repr, Inhabited

/-- The font table: 16 glyphs of 5 bytes (R6, R53). -/
abbrev Font := Vector (Vector Byte 5) 16

/-- The configuration (R7, R8). It is fixed before Reset and no event changes it (R34); log 4. -/
structure Config where
  unknownPolicy : UnknownPolicy
  oobPolicy     : OobPolicy
  shiftSource   : ShiftSource
  drawVwrap     : DrawVwrap
  keyIndexMode  : KeyIndexMode
  fx29Mode      : Fx29Mode
  font          : Font
deriving DecidableEq, Repr

/-- The three events of R9, with the arguments the environment supplies. -/
inductive Event where
  /-- `Reset(image)` (R300). -/
  | reset (image : List Byte)
  /-- `Cycle(keys_in, rnd)` (R100). -/
  | cycle (keysIn : Word) (rnd : Byte)
  /-- `Tick` (R264). -/
  | tick
deriving DecidableEq, Repr, Inhabited

/-- FREE VALUE (DESIGN CHOICE, log 2; safe): the event the environment issues when none is queued. R268 leaves the schedule
open, so nothing may be known of it. -/
opaque Config.freeEvent : Nat → Event

/-- FREE VALUE (log 18; safe): `IPS`, cycles per second (R7). "no rule of this spec depends on its value". -/
opaque Config.ips : Nat

end Sys2Proof
end

