-- ==== Sys2Proof/Machine/Defaults.lean ====
section
/-! DEFINITION. The default configuration: the font table of 20_memory.md R53 and the defaults of 00_scope.md R8. -/

namespace Sys2Proof.Machine

/-- Glyphs 0 to 7 of R53's table, top row first (D4, log 24). -/
def fontLow : Vector (Vector Byte 5) 8 :=
  #v[#v[0xF0, 0x90, 0x90, 0x90, 0xF0], #v[0x20, 0x60, 0x20, 0x20, 0x70], #v[0xF0, 0x10, 0xF0, 0x80, 0xF0],
    #v[0xF0, 0x10, 0xF0, 0x10, 0xF0], #v[0x90, 0x90, 0xF0, 0x10, 0x10], #v[0xF0, 0x80, 0xF0, 0x10, 0xF0],
    #v[0xF0, 0x80, 0xF0, 0x90, 0xF0], #v[0xF0, 0x10, 0x20, 0x40, 0x40]]

/-- Glyphs 8 to F of R53's table. -/
def fontHigh : Vector (Vector Byte 5) 8 :=
  #v[#v[0xF0, 0x90, 0xF0, 0x90, 0xF0], #v[0xF0, 0x90, 0xF0, 0x10, 0xF0], #v[0xF0, 0x90, 0xF0, 0x90, 0x90],
    #v[0xE0, 0x90, 0xE0, 0x90, 0xE0], #v[0xF0, 0x80, 0x80, 0x80, 0xF0], #v[0xE0, 0x90, 0x90, 0x90, 0xE0],
    #v[0xF0, 0x80, 0xF0, 0x80, 0xF0], #v[0xF0, 0x80, 0xF0, 0x80, 0x80]]

/-- `FONT[0..79]`'s default (R8, R53). -/
def defaultFont : Font := fontLow ++ fontHigh

/-- The defaults of R8. `UNKNOWN_POLICY` has no default in the spec: `Strict`, DESIGN CHOICE (log 5; unsafe). -/
def defaultConfig : Config where
  unknownPolicy := .strict
  oobPolicy := .fault
  shiftSource := .vx
  drawVwrap := .wrap
  keyIndexMode := .neverPressed
  fx29Mode := .multiply
  font := defaultFont

end Sys2Proof.Machine
end

