-- ==== Sys2Proof/Machine/State.lean ====
section
/-! DEFINITION. The state of the block (10_state.md), the reasons a step can stop, and the state right after reset. -/

namespace Sys2Proof.Machine

/-- The fatal conditions with the information each records (60_exceptions.md R250). -/
inductive FatalCondition where
  /-- `CALL` with `SP = 16` (R251). -/
  | stackOverflow
  /-- `RET` with `SP = 0` (R252). -/
  | stackUnderflow
  /-- An unrecognised word, or `SYS`, under `Strict` (R253). -/
  | unknownOpcode (word : Word)
  /-- An access above 0xFFF under `OOB_POLICY = fault` (R254). -/
  | memoryOutOfRange (addr : Word)
deriving DecidableEq, Repr

/-- Why `Reset(image)` refuses (70_reset_and_hazards.md R303). -/
inductive LoadError where
  | tooLarge
  | empty
deriving DecidableEq, Repr

/-- The stops of the model. The fatal conditions of R250 are NOT stops: they are next states with `halt` set (R10, log 7). -/
inductive Fault where
  /-- Raised by the `Reset(image)` event alone, on an empty image or one over 3584 bytes: "No state exists after a
  `LoadError`" (R255, R303, log 12). Safe: nothing can be proved of a machine that the spec says does not exist. -/
  | loadError (e : LoadError)
deriving DecidableEq, Repr

/-- The refusals of the model: none of the 35 instructions uses one. -/
inductive Refusal where
  /-- An instruction `exec` has no meaning for. Raised by a refused arm of `exec`; there is none. Safe. -/
  | notModelled (mnemonic : String)
deriving DecidableEq, Repr

/-- The three outcomes of a step of this machine. -/
abbrev Result (σ : Type) := Host.Outcome σ Fault Refusal

/-- Memory as address and byte pairs (`Host.Cell`), addresses rising, no cell that holds what an unlisted address reads as. -/
abbrev Memory := List Host.Cell

/-- `FB` (R29): 32 rows, row 0 at the top; bit `c` of a row is column `c`, column 0 at the left (log 15). -/
abbrev Framebuffer := Vector (BitVec 64) 32

/-- A `Lenient` diagnostic: the word and the address it was fetched from (R275). -/
structure Diagnostic where
  addr : Word
  word : Word
deriving DecidableEq, Repr

/-- The state. The first twelve fields are exactly the members R20 lists; the rest are the model's own. -/
structure State where
  /-- `MEM` (R32, R50). -/
  mem   : Memory
  /-- `V[0..15]` (R21); `V[15]` is VF (R22). -/
  v     : Vector Byte 16
  /-- `I` (R23). -/
  i     : Word
  /-- `PC` (R24). -/
  pc    : Word
  /-- `STACK[0..15]` (R25). -/
  stack : Vector Word 16
  /-- `SP`: the depth, 0 to 16 (R26, log 16). -/
  sp    : Fin 17
  /-- `DT` (R27). -/
  dt    : Byte
  /-- `ST` (R28). -/
  st    : Byte
  /-- `FB` (R29). -/
  fb    : Framebuffer
  /-- `KEYS` (R30). -/
  keys  : Word
  /-- `WAIT` (R31). -/
  wait  : Option RegIdx
  /-- `HALT` (R33). -/
  halt  : Option FatalCondition
  /-- The configuration (R34: fixed; log 4). -/
  cfg   : Config
  /-- The `rnd` argument of the cycle under way (R100, R171; log 3). -/
  rnd   : Byte
  /-- The events the environment has queued, next first (R9, R268; log 1). -/
  inputs : List Event
  /-- How many free events have been drawn (log 2). -/
  drawn : Nat
  /-- The diagnostics emitted so far, oldest first (R275; log 14). -/
  diagnostics : List Diagnostic
deriving DecidableEq, Repr

/-- The machine as Reset constructs it, before an image is copied in (R39, R300; log 9, log 35). Memory lists nothing:
an unlisted cell reads as R39's reset contents (`Memory.unlisted`). -/
def State.reset : State where
  mem := []
  v := Vector.replicate 16 0
  i := 0
  pc := 0x0200
  stack := Vector.replicate 16 0
  sp := 0
  dt := 0
  st := 0
  fb := Vector.replicate 32 0
  keys := 0
  wait := none
  halt := none
  cfg := defaultConfig
  rnd := 0
  inputs := []
  drawn := 0
  diagnostics := []

end Sys2Proof.Machine
end

