-- ==== Sys2Proof/Machine/Ops.lean ====
section
/-! DEFINITION. The named operations over memory, registers, the stack, PC and HALT. -/

namespace Sys2Proof.Machine

/-! ### Memory (20_memory.md) -/

/-- `MEM_SIZE` (R6, R50). -/
def memSize : Nat := 4096

/-- What a cell nothing has written reads as: R39's reset contents with the default font, glyph `d` at `5 * d` (R53), zero
elsewhere. -/
def Memory.unlisted (a : Nat) : Byte :=
  if h : a < 80 then (defaultFont[a / 5]'(by omega))[a % 5]'(by omega) else 0

/-- The byte in cell `a`. -/
def Memory.read : Memory → Nat → Byte
  | [], a => Memory.unlisted a
  | c :: m, a => if c.1 = a then c.2 else Memory.read m a

/-- Cell `a` with `b` put before the cells `m` of higher addresses; nothing is listed if `b` is what `a` reads as anyway. -/
def Memory.put (a : Nat) (b : Byte) (m : Memory) : Memory :=
  if b = Memory.unlisted a then m else (a, b) :: m

/-- Store `b` in cell `a`, keeping the canonical form. -/
def Memory.write : Memory → Nat → Byte → Memory
  | [], a, b => Memory.put a b []
  | c :: m, a, b =>
    if a < c.1 then Memory.put a b (c :: m)
    else if a = c.1 then Memory.put a b m
    else c :: Memory.write m a b

/-- Store the bytes in the cells, pair by pair, first pair first. -/
def Memory.writeAll (m : Memory) : List Host.Cell → Memory
  | [] => m
  | c :: cs => Memory.writeAll (m.write c.1 c.2) cs

/-- The canonical form of the cells at `lo` and above: addresses strictly rising and inside the address space, no cell that
holds what it would read as unlisted. -/
def Memory.wfFrom : Nat → Memory → Bool
  | _, [] => true
  | lo, c :: m =>
    decide (lo ≤ c.1) && decide (c.1 < memSize) && !decide (c.2 = Memory.unlisted c.1) && Memory.wfFrom (c.1 + 1) m

/-- The canonical form: equal memories are equal data. -/
def Memory.wf (m : Memory) : Bool := Memory.wfFrom 0 m

/-- The cell an access to address `addr`, an untruncated sum (R68), reaches, or the fatal condition it raises (R54, D3). -/
def access (p : OobPolicy) (addr : Nat) : Except FatalCondition Nat :=
  if addr < memSize then .ok addr
  else match p with
    | .fault => .error (.memoryOutOfRange (BitVec.ofNat 16 addr))
    | .wrap => .ok (addr % memSize)

/-- The cells of the `n` items at `base`, `base + 1`, ... (R55, R196), every address checked before anything is read or
written (R54); the first that is out of range gives the fatal condition. -/
def span (p : OobPolicy) : Nat → Nat → Except FatalCondition (List Nat)
  | _, 0 => .ok []
  | base, n + 1 =>
    match access p base with
    | .error f => .error f
    | .ok c =>
      match span p (base + 1) n with
      | .error f => .error f
      | .ok cs => .ok (c :: cs)

/-- The bytes in the cells (`MemRead`, R54). -/
def State.load (s : State) (cells : List Nat) : List Byte := cells.map s.mem.read

/-- The bytes put in the cells in order (`MemWrite`, R54). -/
def State.store (s : State) (cells : List Nat) (bytes : List Byte) : State :=
  { s with mem := s.mem.writeAll (cells.zip bytes) }

/-! ### Registers (10_state.md) -/

/-- `V[x]` (R12, R21). -/
def State.reg (s : State) (x : RegIdx) : Byte := s.v[x.toNat]'(x.isLt)

/-- `V[x] <- b` (R12, R21). -/
def State.setReg (s : State) (x : RegIdx) (b : Byte) : State := { s with v := s.v.set x.toNat b x.isLt }

/-- `V[0..]`, as many as there are bytes, in ascending order (R195). -/
def State.setRegs (s : State) : Nat → List Byte → State
  | _, [] => s
  | k, b :: bs => State.setRegs (s.setReg (BitVec.ofNat 4 k) b) (k + 1) bs

/-- `V[0]` to `V[x]` (R194). -/
def State.regsUpTo (s : State) (x : RegIdx) : List Byte :=
  (List.range (x.toNat + 1)).map fun k => s.reg (BitVec.ofNat 4 k)

/-- `I <- w` (R23). -/
def State.setI (s : State) (w : Word) : State := { s with i := w }

/-- `PC <- w` (R24). -/
def State.setPc (s : State) (w : Word) : State := { s with pc := w }

/-- `PC <- trunc_16(PC + 2)` (R24, R105, D30). -/
def State.advance (s : State) : State := s.setPc (s.pc + 2)

/-- `PC <- trunc_16(PC + 4)` if the condition holds, else `PC + 2` (R105). -/
def State.skipIf (s : State) (c : Bool) : State := s.setPc (if c then s.pc + 4 else s.pc + 2)

/-- `DT <- b` (R27). -/
def State.setDt (s : State) (b : Byte) : State := { s with dt := b }

/-- `ST <- b` (R28). -/
def State.setSt (s : State) (b : Byte) : State := { s with st := b }

/-- `FB <- f` (R29). -/
def State.setFb (s : State) (f : Framebuffer) : State := { s with fb := f }

/-- `WAIT <- w` (R31). -/
def State.setWait (s : State) (w : Option RegIdx) : State := { s with wait := w }

/-- The cycle's arguments: `KEYS <- keys_in` (R101), and `rnd` held for the instruction (R171, log 3). -/
def State.latch (s : State) (keysIn : Word) (rnd : Byte) : State := { s with keys := keysIn, rnd := rnd }

/-- Emit a diagnostic (R125, R275). -/
def State.emit (s : State) (d : Diagnostic) : State := { s with diagnostics := s.diagnostics ++ [d] }

/-! ### The stack (R25, R26) -/

/-- The stack array and the depth. -/
def State.setStack (s : State) (stack : Vector Word 16) (sp : Fin 17) : State := { s with stack := stack, sp := sp }

/-- Push: `STACK[SP] <- w`, then `SP <- SP + 1`; `none` when 16 addresses are there already (R26). -/
def State.push (s : State) (w : Word) : Option State :=
  if h : s.sp.val < 16 then some (s.setStack (s.stack.set s.sp.val w h) ⟨s.sp.val + 1, by omega⟩) else none

/-- Pop: `SP <- SP - 1`, then `STACK[SP]` is read; `none` when the stack is empty (R26). The slot keeps its value. -/
def State.pop (s : State) : Option (Word × State) :=
  if h : s.sp.val = 0 then none
  else some (s.stack[s.sp.val - 1]'(by omega), s.setStack s.stack ⟨s.sp.val - 1, by omega⟩)

/-! ### Fatal conditions (60_exceptions.md) -/

/-- `raise F(info)` (R12, R256): no write of the event is kept, `HALT <- F(info)`, nothing else changes. It is applied to
the state the event found; PC still addresses the instruction. The spec has no trap entry beyond this and no return (R260,
R261): only `Reset` leaves the halted state. -/
def State.raise (s : State) (f : FatalCondition) : State := { s with halt := some f }

/-- The numeric code of the halted output (R250, D17; 0 is no fatal condition). -/
def FatalCondition.code : FatalCondition → Nat
  | .stackOverflow => 1
  | .stackUnderflow => 2
  | .unknownOpcode _ => 3
  | .memoryOutOfRange _ => 4

end Sys2Proof.Machine
end

