-- ==== Sys2Proof/Machine/Clock.lean ====
section
/-! DEFINITION. The `Tick` event and the outputs that are functions of state (60_exceptions.md R264 to R266, R276). -/

namespace Sys2Proof.Machine

/-- One timer, one tick: "decrements toward zero … and never wraps below zero" (R27, R264). -/
def countDown (t : Byte) : Byte := if t = 0 then 0 else t - 1

/-- `Tick()` (R264): nothing when halted (R257); else each timer counts, and nothing else changes. -/
def tick (s : State) : State :=
  match s.halt with
  | some _ => s
  | none => (s.setDt (countDown s.dt)).setSt (countDown s.st)

/-- The tone output, a level (R41, R266, D23, log 41). -/
def State.tone (s : State) : Bool := !decide (s.st = 0)

/-- The numeric halted output (R250, R276). -/
def State.haltCode (s : State) : Nat :=
  match s.halt with
  | none => 0
  | some f => f.code

end Sys2Proof.Machine
end

