-- ==== Sys2Proof/Machine/Flags.lean ====
section
/-! DEFINITION. The flag: VF after arithmetic (10_state.md R22, 43_alu.md R166 to R172). -/

namespace Sys2Proof.Machine

/-- `V[15]`, the only flag (R22). -/
def vf : RegIdx := 0xF#4

/-- `zext_8` of a flag bit: 0x00 or 0x01 (R22). -/
def flagByte (c : Bool) : Byte := if c then 1 else 0

/-- `V[15] <- zext_8(c)` (R22). -/
def State.setFlag (s : State) (c : Bool) : State := s.setReg vf (flagByte c)

/-- The result to `V[x]`, then the flag to `V[15]`, which remains when `x = 15` (R172, D8, log 28). -/
def State.setResultFlag (s : State) (x : RegIdx) (result : Byte) (c : Bool) : State :=
  (s.setReg x result).setFlag c

/-- Carry of `8XY4`: the exact sum is over 255 (R166, R173). -/
def addCarry (a b : Byte) : Bool := decide (a.toNat + b.toNat > 255)

/-- No borrow of `a - b`: `a >= b` (R167, R169, R173). -/
def noBorrow (a b : Byte) : Bool := decide (b.toNat ≤ a.toNat)

/-- The bit `SHR` shifts out: bit 0 of the source (R168). -/
def shrOut (src : Byte) : Bool := src.getLsbD 0

/-- The bit `SHL` shifts out: bit 7 of the source (R170). -/
def shlOut (src : Byte) : Bool := src.getLsbD 7

end Sys2Proof.Machine
end

