-- ==== Sys2Proof/Machine/Operands.lean ====
section
/-! DEFINITION. The operand forms: immediates, the shift source, the key test, the font address, the BCD digits, the sprite. -/

namespace Sys2Proof.Machine

/-- `zext_16(nnn)` (R73). -/
def zextAddr (nnn : Addr12) : Word := nnn.zeroExtend 16

/-- `zext_16(b)` (R124, R191). -/
def zextByte (b : Byte) : Word := b.zeroExtend 16

/-- The register `SHR` and `SHL` shift (R168, R170, D7, log 27). -/
def State.shiftSource (s : State) (x y : RegIdx) : Byte :=
  match s.cfg.shiftSource with
  | .vx => s.reg x
  | .vy => s.reg y

/-- `Pressed(v)` (R146, D13, log 33). -/
def State.pressed (s : State) (v : Byte) : Bool :=
  match s.cfg.keyIndexMode with
  | .neverPressed => decide (v.toNat ≤ 0x0F) && s.keys.getLsbD v.toNat
  | .mask => s.keys.getLsbD (v.toNat % 16)

/-- The font digit of `LD F, Vx` (R192, D14, log 34). -/
def State.fontDigit (s : State) (v : Byte) : Nat :=
  match s.cfg.fx29Mode with
  | .multiply => v.toNat
  | .mask => v.toNat % 16

/-- `trunc_16(FONT_BASE + 5 * d)` with `FONT_BASE = 0` (R6, R192). -/
def fontAddr (d : Nat) : Word := BitVec.ofNat 16 (0 + 5 * d)

/-- Hundreds, tens, ones of a byte, in the order they are stored (R193, D11, log 31). -/
def bcdDigits (v : Byte) : List Byte :=
  [BitVec.ofNat 8 (v.toNat / 100), BitVec.ofNat 8 (v.toNat / 10 % 10), BitVec.ofNat 8 (v.toNat % 10)]

/-- The pixels a sprite byte covers in a row of the screen when its leftmost pixel is at column `x0`: bit 7 is leftmost
(R213, D5, log 25), so the byte is reversed, and columns past 63 reappear at the left (R211). -/
def spriteMask (b : Byte) (x0 : Nat) : BitVec 64 := (b.reverse.zeroExtend 64).rotateLeft x0

/-- The key code of the lowest set bit, if any (R102, D21, log 39). -/
def lowestKey (edges : Word) : Option (BitVec 4) :=
  ((List.range 16).find? fun k => edges.getLsbD k).map (BitVec.ofNat 4)

end Sys2Proof.Machine
end

