-- ==== Sys2Proof/Machine/Alu.lean ====
section
/-! DEFINITION. Register load, arithmetic and the random byte (43_alu.md). -/

namespace Sys2Proof.Machine

/-- `LD Vx, byte` (R160). -/
def execLdByte (x : RegIdx) (nn : Byte) (s : State) : Result State := .next (s.setReg x nn).advance

/-- `ADD Vx, byte` (R161): wraps, VF is not modified. -/
def execAddByte (x : RegIdx) (nn : Byte) (s : State) : Result State := .next (s.setReg x (s.reg x + nn)).advance

/-- `LD Vx, Vy` (R162). -/
def execLdReg (x y : RegIdx) (s : State) : Result State := .next (s.setReg x (s.reg y)).advance

/-- `OR Vx, Vy` (R163); VF is not written (D9, log 29). -/
def execOrReg (x y : RegIdx) (s : State) : Result State := .next (s.setReg x (s.reg x ||| s.reg y)).advance

/-- `AND Vx, Vy` (R164); VF is not written (D9, log 29). -/
def execAndReg (x y : RegIdx) (s : State) : Result State := .next (s.setReg x (s.reg x &&& s.reg y)).advance

/-- `XOR Vx, Vy` (R165); VF is not written (D9, log 29). -/
def execXorReg (x y : RegIdx) (s : State) : Result State := .next (s.setReg x (s.reg x ^^^ s.reg y)).advance

/-- `ADD Vx, Vy` (R166). -/
def execAddReg (x y : RegIdx) (s : State) : Result State :=
  .next (s.setResultFlag x (s.reg x + s.reg y) (addCarry (s.reg x) (s.reg y))).advance

/-- `SUB Vx, Vy` (R167). -/
def execSubReg (x y : RegIdx) (s : State) : Result State :=
  .next (s.setResultFlag x (s.reg x - s.reg y) (noBorrow (s.reg x) (s.reg y))).advance

/-- `SHR Vx {, Vy}` (R168). -/
def execShr (x y : RegIdx) (s : State) : Result State :=
  .next (s.setResultFlag x (s.shiftSource x y >>> 1) (shrOut (s.shiftSource x y))).advance

/-- `SUBN Vx, Vy` (R169). -/
def execSubnReg (x y : RegIdx) (s : State) : Result State :=
  .next (s.setResultFlag x (s.reg y - s.reg x) (noBorrow (s.reg y) (s.reg x))).advance

/-- `SHL Vx {, Vy}` (R170). -/
def execShl (x y : RegIdx) (s : State) : Result State :=
  .next (s.setResultFlag x (s.shiftSource x y <<< 1) (shlOut (s.shiftSource x y))).advance

/-- `RND Vx, byte` (R171), with the cycle's `rnd` (D22, log 40). -/
def execRnd (x : RegIdx) (nn : Byte) (s : State) : Result State := .next (s.setReg x (s.rnd &&& nn)).advance

end Sys2Proof.Machine
end

