-- ==== Sys2Proof/Machine/Display.lean ====
section
/-! DEFINITION. Display instructions (45_display.md) and the framebuffer output (60_exceptions.md R273). -/

namespace Sys2Proof.Machine

/-- All 2048 pixels 0 (R210). -/
def clearScreen : Framebuffer := Vector.replicate 32 0

/-- `FB[r][c]` (R29), the framebuffer output (R273). -/
def State.pixel (s : State) (r : Fin 32) (c : Fin 64) : Bool := s.fb[r].getLsbD c

/-- One sprite row drawn in screen row `r`: exclusive-or of the covered pixels, and whether one of them was set and so goes
from set to unset (R211). -/
def drawRow (fb : Framebuffer) (r : Fin 32) (mask : BitVec 64) : Framebuffer × Bool :=
  (fb.set r (fb[r] ^^^ mask), !decide (fb[r] &&& mask = 0))

/-- The screen row of sprite row `row`: under `wrap` modulo 32, under `clip` none below row 31 (R211, D12, log 32). -/
def screenRow (mode : DrawVwrap) (y0 row : Nat) : Option (Fin 32) :=
  if mode = .clip ∧ y0 + row > 31 then none else some ⟨(y0 + row) % 32, by omega⟩

/-- The rows of a sprite drawn from sprite row `row` on, with the collision found so far (R211). -/
def drawRows (mode : DrawVwrap) (x0 y0 : Nat) : Nat → List Byte → Framebuffer → Bool → Framebuffer × Bool
  | _, [], fb, hit => (fb, hit)
  | row, b :: bs, fb, hit =>
    match screenRow mode y0 row with
    | none => drawRows mode x0 y0 (row + 1) bs fb hit
    | some r =>
      drawRows mode x0 y0 (row + 1) bs (drawRow fb r (spriteMask b x0)).1 (hit || (drawRow fb r (spriteMask b x0)).2)

/-- The framebuffer and the collision after a sprite is drawn at `(V[x] mod 64, V[y] mod 32)` (R211). -/
def State.drawSprite (s : State) (x y : RegIdx) (bytes : List Byte) : Framebuffer × Bool :=
  drawRows s.cfg.drawVwrap ((s.reg x).toNat % 64) ((s.reg y).toNat % 32) 0 bytes s.fb false

/-- `CLS` (R210). -/
def execCls (s : State) : Result State := .next (s.setFb clearScreen).advance

/-- `DRW Vx, Vy, nibble` (R211): operands read, all sprite addresses checked, framebuffer updated, VF written last (R172). -/
def execDrw (x y : RegIdx) (n : Nibble) (s : State) : Result State :=
  match span s.cfg.oobPolicy s.i.toNat n.toNat with
  | .error f => .next (s.raise f)
  | .ok cells =>
    .next ((s.setFb (s.drawSprite x y (s.load cells)).1).setFlag (s.drawSprite x y (s.load cells)).2).advance

end Sys2Proof.Machine
end

