-- ==== Sys2Proof/Machine/Flow.lean ====
section
/-! DEFINITION. Control transfer and Unknown words (41_flow.md). -/

namespace Sys2Proof.Machine

/-- `Unknown(word)` (R125): fatal under `Strict`; under `Lenient` a diagnostic and `PC + 2`. -/
def execUnknown (word : Word) (s : State) : Result State :=
  match s.cfg.unknownPolicy with
  | .strict => .next (s.raise (.unknownOpcode word))
  | .lenient => .next (s.emit ⟨s.pc, word⟩).advance

/-- `SYS addr` (R120): exactly `Unknown(word)` of the fetched word `0NNN` (D16, log 36). -/
def execSys (nnn : Addr12) (s : State) : Result State := execUnknown (formatNNN 0x0#4 nnn) s

/-- `RET` (R121). -/
def execRet (s : State) : Result State :=
  match s.pop with
  | none => .next (s.raise .stackUnderflow)
  | some (w, s') => .next (s'.setPc w)

/-- `JP addr` (R122). -/
def execJp (nnn : Addr12) (s : State) : Result State := .next (s.setPc (zextAddr nnn))

/-- `CALL addr` (R123). -/
def execCall (nnn : Addr12) (s : State) : Result State :=
  match s.push (s.pc + 2) with
  | none => .next (s.raise .stackOverflow)
  | some s' => .next (s'.setPc (zextAddr nnn))

/-- `JP V0, addr` (R124). -/
def execJpV0 (nnn : Addr12) (s : State) : Result State := .next (s.setPc (zextAddr nnn + zextByte (s.reg 0)))

end Sys2Proof.Machine
end

