-- ==== Sys2Proof/Machine/IndexMemory.lean ====
section
/-! DEFINITION. Index register and memory transfer (44_index_memory.md). -/

namespace Sys2Proof.Machine

/-- `LD I, addr` (R190). -/
def execLdI (nnn : Addr12) (s : State) : Result State := .next (s.setI (zextAddr nnn)).advance

/-- `ADD I, Vx` (R191): wraps within 16 bits, VF is not written. -/
def execAddI (x : RegIdx) (s : State) : Result State := .next (s.setI (s.i + zextByte (s.reg x))).advance

/-- `LD F, Vx` (R192). -/
def execLdF (x : RegIdx) (s : State) : Result State := .next (s.setI (fontAddr (s.fontDigit (s.reg x)))).advance

/-- `LD B, Vx` (R193). -/
def execLdB (x : RegIdx) (s : State) : Result State :=
  match span s.cfg.oobPolicy s.i.toNat 3 with
  | .error f => .next (s.raise f)
  | .ok cells => .next (s.store cells (bcdDigits (s.reg x))).advance

/-- `LD [I], Vx` (R194); `I` is unchanged (D10, log 30). -/
def execLdMemVx (x : RegIdx) (s : State) : Result State :=
  match span s.cfg.oobPolicy s.i.toNat (x.toNat + 1) with
  | .error f => .next (s.raise f)
  | .ok cells => .next (s.store cells (s.regsUpTo x)).advance

/-- `LD Vx, [I]` (R195); `I` is unchanged (D10, log 30). -/
def execLdVxMem (x : RegIdx) (s : State) : Result State :=
  match span s.cfg.oobPolicy s.i.toNat (x.toNat + 1) with
  | .error f => .next (s.raise f)
  | .ok cells => .next (s.setRegs 0 (s.load cells)).advance

end Sys2Proof.Machine
end

