-- ==== Sys2Proof/Machine/Skip.lean ====
section
/-! DEFINITION. Conditional skips (42_skip.md). -/

namespace Sys2Proof.Machine

/-- `SE Vx, byte` (R140). -/
def execSeByte (x : RegIdx) (nn : Byte) (s : State) : Result State := .next (s.skipIf (decide (s.reg x = nn)))

/-- `SNE Vx, byte` (R141). -/
def execSneByte (x : RegIdx) (nn : Byte) (s : State) : Result State := .next (s.skipIf (!decide (s.reg x = nn)))

/-- `SE Vx, Vy` (R142). -/
def execSeReg (x y : RegIdx) (s : State) : Result State := .next (s.skipIf (decide (s.reg x = s.reg y)))

/-- `SNE Vx, Vy` (R143). -/
def execSneReg (x y : RegIdx) (s : State) : Result State := .next (s.skipIf (!decide (s.reg x = s.reg y)))

/-- `SKP Vx` (R144). -/
def execSkp (x : RegIdx) (s : State) : Result State := .next (s.skipIf (s.pressed (s.reg x)))

/-- `SKNP Vx` (R145). -/
def execSknp (x : RegIdx) (s : State) : Result State := .next (s.skipIf (!s.pressed (s.reg x)))

end Sys2Proof.Machine
end

