-- ==== Sys2Proof/Machine/TimerKey.lean ====
section
/-! DEFINITION. Timer access and key wait (46_timer_key.md). -/

namespace Sys2Proof.Machine

/-- `LD Vx, DT` (R230). -/
def execLdVxDt (x : RegIdx) (s : State) : Result State := .next (s.setReg x s.dt).advance

/-- `LD Vx, K` (R231): `WAIT <- Some(x)`, PC is not changed; the wait branch of the cycle does the rest (R102). -/
def execLdVxK (x : RegIdx) (s : State) : Result State := .next (s.setWait (some x))

/-- `LD DT, Vx` (R232). -/
def execLdDtVx (x : RegIdx) (s : State) : Result State := .next (s.setDt (s.reg x)).advance

/-- `LD ST, Vx` (R233). -/
def execLdStVx (x : RegIdx) (s : State) : Result State := .next (s.setSt (s.reg x)).advance

end Sys2Proof.Machine
end

