-- ==== Sys2Proof/Machine/Fetch.lean ====
section
/-! DEFINITION. Instruction fetch (40_cycle.md R103) and placing a word where it is fetched. -/

namespace Sys2Proof.Machine

/-- `Fetch()` (R103): the range check of R58, recording PC itself, then `hi ++ lo` (R56). PC is not changed. -/
def fetch (s : State) : Except FatalCondition Word :=
  if s.cfg.oobPolicy = .fault ∧ s.pc.toNat + 1 > 0xFFF then .error (.memoryOutOfRange s.pc)
  else .ok (wordOfBytes (s.mem.read (s.pc.toNat % memSize)) (s.mem.read ((s.pc.toNat + 1) % memSize)))

/-- A PC from which a word can be fetched: PC itself, or the entry point 0x200 (R301) where PC is out of range under
`OOB_POLICY = fault` (log 10). -/
def State.fetchablePc (s : State) : Word :=
  if s.cfg.oobPolicy = .fault ∧ s.pc.toNat + 1 > 0xFFF then 0x0200 else s.pc

/-- The bytes of the opcode table's bits `w` stored at the address `pc`. -/
def Memory.placeWord (m : Memory) (pc : Word) (w : Nat) : Memory :=
  (m.write (pc.toNat % memSize) (tableBytes w).1).write ((pc.toNat + 1) % memSize) (tableBytes w).2

/-- All that a fetch of `w` by the very next event takes (log 10): the word in memory, a machine that is neither halted nor
waiting, and a `Cycle` at the head of the queue that leaves KEYS and `rnd` as they are. -/
def State.placeForFetch (s : State) (w : Nat) : State :=
  { s with
    pc := s.fetchablePc
    mem := s.mem.placeWord s.fetchablePc w
    wait := none
    halt := none
    inputs := .cycle s.keys s.rnd :: s.inputs }

end Sys2Proof.Machine
end

