-- ==== Sys2Proof/Machine/Loader.lean ====
section
/-! DEFINITION. The `Reset(image)` event: construction and loading (70_reset_and_hazards.md R300 to R304). -/

namespace Sys2Proof.Machine

/-- `LOAD_ADDR` (R6). -/
def loadAddr : Nat := 0x200

/-- `MAX_PROGRAM` (R6, R303): 4096 - 0x200 bytes. -/
def maxProgram : Nat := 3584

/-- Consecutive bytes from address `a` on. -/
def Memory.writeFrom (m : Memory) : Nat → List Byte → Memory
  | _, [] => m
  | a, b :: bs => Memory.writeFrom (m.write a b) (a + 1) bs

/-- `FONT[0..79]` (R53): glyph by glyph, top row first. -/
def fontBytes (f : Font) : List Byte := f.toList.flatMap Vector.toList

/-- The memory Reset constructs: zero, with the configured font at 0x000 (R39, R53). It is written over the reset contents
of the default font, so with that font nothing is listed. -/
def freshMemory (f : Font) : Memory := Memory.writeFrom [] 0 (fontBytes f)

/-- The freshly constructed State (R39, R40): nothing of the old state survives. The configuration is fixed (R34), and the
environment's queue, the free-event counter and the record of emitted diagnostics are not state of the block (log 13). -/
def State.fresh (s : State) : State :=
  { State.reset with
    mem := freshMemory s.cfg.font
    cfg := s.cfg
    inputs := s.inputs
    drawn := s.drawn
    diagnostics := s.diagnostics }

/-- `load(program)` into a freshly constructed State (R302, R303): the loaded length and the state, or the load error. -/
def State.loadImage (s : State) (image : List Byte) : Except LoadError (Nat × State) :=
  if image.length = 0 then .error .empty
  else if image.length > maxProgram then .error .tooLarge
  else .ok (image.length, { s with mem := s.mem.writeFrom loadAddr image })

/-- `Reset(image)` (R300): construct, then load; a `LoadError` leaves no machine (R255, log 12). -/
def resetEvent (image : List Byte) (s : State) : Result State :=
  match s.fresh.loadImage image with
  | .error e => .fault (.loadError e)
  | .ok (_, s') => .next s'

end Sys2Proof.Machine
end

