-- ==== Sys2Proof/Machine/Cycle.lean ====
section
/-! DEFINITION. The `Cycle` event (40_cycle.md) and the handling of one event. -/

namespace Sys2Proof.Machine

/-- `Execute(decode(word), rnd)` (R104). -/
def execWord (word : Word) (s : State) : Result State :=
  match decode word with
  | .instr i => exec i s
  | .unknown w => execUnknown w s

/-- The end of an event that found the state `before`: if the instruction raised, every write of the event is discarded, the
KEYS refresh included, and only HALT is set (R100, R256, log 8). -/
def commit (before : State) : Result State → Result State
  | .next t =>
    match t.halt with
    | some f => .next (before.raise f)
    | none => .next t
  | .fault r => .fault r
  | .refused r => .refused r

/-- The keys that show an edge: up in the previous snapshot, down in this one (R102). -/
def keyEdges (prev now : Word) : Word := now &&& ~~~prev

/-- The wait branch (R102) after the refresh: with no edge nothing more changes; with one, `V[r]` is the lowest key code,
PC advances, the wait ends, and no instruction executes. -/
def State.waitCycle (s : State) (r : RegIdx) (edges : Word) : State :=
  match lowestKey edges with
  | none => s
  | some k => ((s.setReg r (k.zeroExtend 8)).advance).setWait none

/-- `Cycle(keys_in, rnd)` (R100). -/
def cycle (keysIn : Word) (rnd : Byte) (s : State) : Result State :=
  match s.halt with
  | some _ => .next s
  | none =>
    match s.wait with
    | some r => .next ((s.latch keysIn rnd).waitCycle r (keyEdges s.keys keysIn))
    | none =>
      match fetch (s.latch keysIn rnd) with
      | .error f => .next (s.raise f)
      | .ok word => commit s (execWord word (s.latch keysIn rnd))

/-- One event (R9). -/
def handle (e : Event) (s : State) : Result State :=
  match e with
  | .reset image => resetEvent image s
  | .cycle keysIn rnd => cycle keysIn rnd s
  | .tick => .next (tick s)

/-- The next event: the head of the queue (log 1); with an empty queue a free event, about which nothing is known (log 2). -/
def State.takeEvent (s : State) : Event × State :=
  match s.inputs with
  | e :: rest => (e, { s with inputs := rest })
  | [] => (Config.freeEvent s.drawn, { s with drawn := s.drawn + 1 })

end Sys2Proof.Machine
end

