-- ==== Sys2Proof/Machine/Step.lean ====
section
/-! DEFINITION. One step: the next event of the environment, handled whole (R9). -/

namespace Sys2Proof.Machine

/-- One step takes one event and runs it to completion (R9, R59). -/
def step (s : State) : Host.Outcome State Fault Refusal := handle s.takeEvent.1 s.takeEvent.2

/-- `s` with the instruction whose opcode-table bits are `w` where the next step fetches it (log 10). -/
def State.withFetchWord (s : State) (nbits w : Nat) : State := s.placeForFetch (w % 2 ^ nbits)

end Sys2Proof.Machine
end

