-- ==== Sys2Proof/Safety.lean ====
section
/-! DEFINITION. The terms claims use: frames, the invariant (10_state.md R38), the stopping points (70_reset_and_hazards.md R306). -/

namespace Sys2Proof.Machine

/-! ### Frames -/

/-- The parts of the block's state, and the record of emitted diagnostics. -/
inductive Part where
  | mem | regs | index | pc | stack | delay | sound | screen | keys | wait | halt | diagnostics
deriving DecidableEq, Repr

/-- A part is the same in both states: memory byte by byte, registers and stack slot by slot, the screen pixel by pixel. -/
def Agrees (s t : State) : Part → Prop
  | .mem => ∀ a, t.mem.read a = s.mem.read a
  | .regs => ∀ r, t.reg r = s.reg r
  | .index => t.i = s.i
  | .pc => t.pc = s.pc
  | .stack => t.sp = s.sp ∧ ∀ k : Fin 16, t.stack[k] = s.stack[k]
  | .delay => t.dt = s.dt
  | .sound => t.st = s.st
  | .screen => ∀ r c, t.pixel r c = s.pixel r c
  | .keys => t.keys = s.keys
  | .wait => t.wait = s.wait
  | .halt => t.halt = s.halt
  | .diagnostics => t.diagnostics = s.diagnostics

/-- Nothing but the parts listed may differ; the configuration, the cycle's random byte and the environment's events are the
same. -/
def OnlyChanges (s t : State) (parts : List Part) : Prop :=
  (t.cfg = s.cfg ∧ t.rnd = s.rnd ∧ t.inputs = s.inputs ∧ t.drawn = s.drawn) ∧ ∀ p, p ∉ parts → Agrees s t p

/-- `t` is `s` after `raise f`: HALT is `Some(f)` and nothing else differs (R256). -/
def Raises (s t : State) (f : FatalCondition) : Prop := t.halt = some f ∧ OnlyChanges s t [.halt]

/-! ### Memory transfers -/

/-- How many bytes at `I` an instruction transfers (R51). -/
def transferLength : Instr → Nat
  | .cls => 0
  | .ret => 0
  | .sys _ => 0
  | .jp _ => 0
  | .call _ => 0
  | .seByte _ _ => 0
  | .sneByte _ _ => 0
  | .seReg _ _ => 0
  | .ldByte _ _ => 0
  | .addByte _ _ => 0
  | .ldReg _ _ => 0
  | .orReg _ _ => 0
  | .andReg _ _ => 0
  | .xorReg _ _ => 0
  | .addReg _ _ => 0
  | .subReg _ _ => 0
  | .shr _ _ => 0
  | .subnReg _ _ => 0
  | .shl _ _ => 0
  | .sneReg _ _ => 0
  | .ldI _ => 0
  | .jpV0 _ => 0
  | .rnd _ _ => 0
  | .drw _ _ n => n.toNat
  | .skp _ => 0
  | .sknp _ => 0
  | .ldVxDt _ => 0
  | .ldVxK _ => 0
  | .ldDtVx _ => 0
  | .ldStVx _ => 0
  | .addI _ => 0
  | .ldF _ => 0
  | .ldB _ => 3
  | .ldMemVx x => x.toNat + 1
  | .ldVxMem x => x.toNat + 1

/-- All `len` bytes at `I` can be accessed: `I + len - 1` is no address above 0xFFF, or `OOB_POLICY = wrap` (R54, R254). -/
def InRange (s : State) (len : Nat) : Prop := s.cfg.oobPolicy = .wrap ∨ len = 0 ∨ s.i.toNat + len - 1 ≤ 0xFFF

/-- The information value of a transfer out of range: `trunc_16(max(I, 0x1000))` (R254). -/
def firstOutOfRange (s : State) : Word := BitVec.ofNat 16 (max s.i.toNat 0x1000)

/-- The cell of item `k` of a transfer at `I` (R54, R68, R196). -/
def itemCell (s : State) (k : Nat) : Nat := (s.i.toNat + k) % 4096

/-- Sprite pixel `col` of row `row` is set and is drawn at screen row `r`, column `c` (R211, R213). -/
def SpriteCovers (s : State) (x y : RegIdx) (n : Nibble) (r : Fin 32) (c : Fin 64) : Prop :=
  ∃ row col : Nat, row < n.toNat ∧ col < 8 ∧
    (s.mem.read (itemCell s row)).getLsbD (7 - col) = true ∧
    ¬ (s.cfg.drawVwrap = .clip ∧ (s.reg y).toNat % 32 + row > 31) ∧
    r.val = ((s.reg y).toNat % 32 + row) % 32 ∧ c.val = ((s.reg x).toNat % 64 + col) % 64

/-! ### The invariant -/

/-- Why the machine halted: PC still addresses the instruction, and the information value identifies the cause (R250 to
R254, R256). -/
def HaltCause (s : State) : FatalCondition → Prop
  | .stackOverflow => s.sp = 16 ∧ ∃ w nnn, fetch s = .ok w ∧ decode w = .instr (.call nnn)
  | .stackUnderflow => s.sp = 0 ∧ ∃ w, fetch s = .ok w ∧ decode w = .instr .ret
  | .unknownOpcode w =>
    s.cfg.unknownPolicy = .strict ∧ fetch s = .ok w ∧ (decode w = .unknown w ∨ ∃ nnn, decode w = .instr (.sys nnn))
  | .memoryOutOfRange a =>
    s.cfg.oobPolicy = .fault ∧
      ((s.pc.toNat + 1 > 0xFFF ∧ a = s.pc) ∨
        ∃ w i, fetch s = .ok w ∧ decode w = .instr i ∧ ¬ InRange s (transferLength i) ∧ a = firstOutOfRange s)

/-- What holds in every state reachable from Reset (R38, R24, R250, R256). -/
structure State.Inv (s : State) : Prop where
  /-- Memory is in its canonical form. -/
  memory : s.mem.wf = true
  /-- A waiting machine's PC addresses the `LD Vx, K` that set the wait (R38). -/
  waiting : ∀ r, s.wait = some r → ∃ w, fetch s = .ok w ∧ decode w = .instr (.ldVxK r)
  /-- Under the fault policy PC is at most 0x10FE and a return address at most 0x1000, so PC never wraps (R24). -/
  pcBound : s.cfg.oobPolicy = .fault → s.pc.toNat ≤ 0x10FE ∧ ∀ k : Fin 16, s.stack[k].toNat ≤ 0x1000
  /-- A halted machine shows why (R256). -/
  halted : ∀ f, s.halt = some f → HaltCause s f

/-! ### Stopping points (R306, D34, log 48) -/

/-- (a) Halted: a failure, never a successful end. -/
def State.Halted (s : State) : Prop := s.halt ≠ none

/-- (b) The idle loop `JP PC`, the conventional successful end. -/
def State.IdleLoop (s : State) : Prop :=
  s.halt = none ∧ s.wait = none ∧ s.pc.toNat ≤ 0xFFF ∧ fetch s = .ok (0x1000 ||| s.pc)

/-- Waiting for a key now: no stopping point by itself, since the next cycle may bring an edge. -/
def State.Waiting (s : State) : Prop := s.halt = none ∧ s.wait ≠ none

/-- KEYS after one event of a machine that is not halted and does not raise (R30, R101, R300). -/
def keysAfter (keys : Word) : Event → Word
  | .reset _ => 0
  | .cycle keysIn _ => keysIn
  | .tick => keys

/-- KEYS when event `n` of a schedule comes, if KEYS is `keys` at its start. -/
def keysBefore (keys : Word) (events : Nat → Event) : Nat → Word
  | 0 => keys
  | n + 1 => keysAfter (keysBefore keys events n) (events n)

/-- No cycle of the schedule shows an edge: a key up in the snapshot before and down in this one (R102, D21, log 39). -/
def NoKeyEdge (keys : Word) (events : Nat → Event) : Prop :=
  ∀ n keysIn rnd, events n = .cycle keysIn rnd → keyEdges (keysBefore keys events n) keysIn = 0

/-- The schedule never resets the machine. -/
def NoReset (events : Nat → Event) : Prop := ∀ n image, events n ≠ .reset image

/-- (c) Waiting for ever: waiting, with the events to come never a key edge (and never a Reset, which ends the run). -/
def State.WaitsForever (s : State) (events : Nat → Event) : Prop :=
  s.Waiting ∧ NoReset events ∧ NoKeyEdge s.keys events

/-- The three kinds of stopping point "and no others", of a machine to which `events` come. -/
def State.StoppingPoint (s : State) (events : Nat → Event) : Prop := s.Halted ∨ s.IdleLoop ∨ s.WaitsForever events

end Sys2Proof.Machine
end

