-- ==== Sys2Proof/Certificates/Slice0/Obligations.lean ====
section
/-! DEFINITION. The statements for the provers, from the numbered rules of spec/. Each docstring names its rules; a clause that is a decision of the spec (D<n>) or a choice of the model names its log entry. -/

open Sys2Proof Sys2Proof.Machine

/-! ### Encoding (30_encoding.md) -/

/-- Decoding an encoded well-formed instruction gives it back, every operand at every value (sections 1 to 4; family 8's
nibbles are D6, log 26, and `0NNN` D16, log 36). -/
def Obligations.DecodeEncodeRoundTrip : Prop :=
  ∀ i : Instr, i.wf = true → decode (encode i) = .instr i

/-- Each recognised word is the encoding of the one well-formed instruction it decodes to: no bit is dropped (section 4;
D6, log 26; D16, log 36). -/
def Obligations.EncodeDecodeRoundTrip : Prop :=
  ∀ (w : Word) (i : Instr), decode w = .instr i → i.wf = true ∧ encode i = w

/-- A word decodes to an instruction only of the row it matches, and to `Unknown(word)` only if no row matches (section 4;
D6, log 26; D16, log 36; D28, log 43). -/
def Obligations.DecodeAgreesWithOpcodeMap : Prop :=
  (∀ (w : Word) (i : Instr), decode w = .instr i → i.opRow ∈ opcodeRows ∧ i.opRow.matchesWord w = true) ∧
  (∀ (w u : Word), decode w = .unknown u → u = w ∧ ∀ r ∈ opcodeRows, r.matchesWord w = false)

/-- R78: at most one of rows 1, 2, 4 to 35 matches a word, and row 3 exactly when `op = 0` and neither row 1 nor row 2. -/
def Obligations.OpcodeRowsDisjoint : Prop :=
  (∀ (w : Word) (j k : Fin 35), j.val ≠ 2 → k.val ≠ 2 →
      (opcodeRows[j.val]?.map fun r => r.matchesWord w) = some true →
      (opcodeRows[k.val]?.map fun r => r.matchesWord w) = some true → j = k) ∧
  (∀ w : Word, (opcodeRows[2]?.map fun r => r.matchesWord w) = some true ↔
      fieldOp w = 0 ∧ (opcodeRows[0]?.map fun r => r.matchesWord w) = some false ∧
        (opcodeRows[1]?.map fun r => r.matchesWord w) = some false)

/-- The Unknown words are exactly the five sets of section 5 (literal digits must match: D28, log 43; D6, log 26; `0NNN` is a
row: D16, log 36). -/
def Obligations.UnknownWordsExactly : Prop :=
  ∀ w : Word, decode w = .unknown w ↔
    (fieldOp w = 0x5 ∧ fieldN w ≠ 0) ∨
    (fieldOp w = 0x8 ∧ fieldN w ∈ [0x8#4, 0x9#4, 0xA#4, 0xB#4, 0xC#4, 0xD#4, 0xF#4]) ∨
    (fieldOp w = 0x9 ∧ fieldN w ≠ 0) ∨
    (fieldOp w = 0xE ∧ fieldNN w ∉ [0x9E#8, 0xA1#8]) ∨
    (fieldOp w = 0xF ∧ fieldNN w ∉ [0x07#8, 0x0A#8, 0x15#8, 0x18#8, 0x1E#8, 0x29#8, 0x33#8, 0x55#8, 0x65#8])

/-- The worked decodings of section 7, on the bytes as they lie in memory (big-endian: D1, log 21; D6, log 26; D16, log 36;
D28, log 43). -/
def Obligations.WorkedDecodings : Prop :=
  decodeBytes 0x30 0x10 = .instr (.seByte 0x0 0x10) ∧
  decodeBytes 0x8A 0xB4 = .instr (.addReg 0xA 0xB) ∧
  decodeBytes 0xD1 0x25 = .instr (.drw 0x1 0x2 0x5) ∧
  decodeBytes 0xF3 0x0A = .instr (.ldVxK 0x3) ∧
  decodeBytes 0x00 0xEE = .instr .ret ∧
  decodeBytes 0x00 0xE1 = .instr (.sys 0x0E1) ∧
  decodeBytes 0x51 0x21 = .unknown 0x5121 ∧
  decodeBytes 0x81 0x28 = .unknown 0x8128 ∧
  decodeBytes 0xE1 0x9F = .unknown 0xE19F ∧
  decodeBytes 0xF1 0xFF = .unknown 0xF1FF ∧
  decodeBytes 0x12 0x34 = .instr (.jp 0x234)

/-! ### The cycle (40_cycle.md) -/

/-- The fetch (section 4; byte order D1, log 21; range D3, log 23): out of range under the fault policy it raises with PC as
the information value; else the word of the two cells, the byte at PC high, addresses modulo 4096. -/
def Obligations.FetchWordOrRangeFault : Prop :=
  ∀ s : State,
    (s.cfg.oobPolicy = .fault → 0xFFE < s.pc.toNat → fetch s = .error (.memoryOutOfRange s.pc)) ∧
    (s.cfg.oobPolicy = .wrap ∨ s.pc.toNat ≤ 0xFFE →
      ∃ w, fetch s = .ok w ∧ w.extractLsb' 8 8 = s.mem.read (s.pc.toNat % 4096) ∧
        w.extractLsb' 0 8 = s.mem.read ((s.pc.toNat + 1) % 4096))

/-- A cycle of a machine that neither halts nor waits runs `exec` of the instruction its word decodes to, on the state with
KEYS refreshed and `rnd` supplied (log 3); if the instruction raises, only HALT is set on the state the cycle found, the
refresh discarded (D18, log 38; log 8). -/
def Obligations.StepRunsDecodedInstruction : Prop :=
  ∀ (s : State) (keysIn : Word) (rnd : Byte) (rest : List Event) (w : Word) (i : Instr),
    s.inputs = .cycle keysIn rnd :: rest → s.halt = none → s.wait = none → fetch s = .ok w → decode w = .instr i →
    ∃ t, exec i { s with inputs := rest, keys := keysIn, rnd := rnd } = .next t ∧
      (t.halt = none → step s = .next t) ∧
      (∀ f, t.halt = some f → step s = .next { s with inputs := rest, halt := some f })

/-- A cycle whose fetch is out of range halts and changes nothing else, the KEYS refresh included (sections 1 and 4, D3,
D18; log 23, log 38). -/
def Obligations.StepRaisesOnFetchOutOfRange : Prop :=
  ∀ (s : State) (keysIn : Word) (rnd : Byte) (rest : List Event),
    s.inputs = .cycle keysIn rnd :: rest → s.halt = none → s.wait = none →
    s.cfg.oobPolicy = .fault → 0xFFE < s.pc.toNat →
    ∃ t, step s = .next t ∧ Raises { s with inputs := rest } t (.memoryOutOfRange s.pc)

/-- An Unknown word (R125) is fatal under `Strict`, with no state change, the KEYS refresh discarded (D18, log 38); under
`Lenient` it emits a diagnostic of PC and the word (the address is the spec's addition D25, the list is log 14) and changes
nothing else but PC and, with the cycle's refresh, KEYS and the random byte (log 3). -/
def Obligations.StepHandlesUnknownWord : Prop :=
  ∀ (s : State) (keysIn : Word) (rnd : Byte) (rest : List Event) (w : Word),
    s.inputs = .cycle keysIn rnd :: rest → s.halt = none → s.wait = none → fetch s = .ok w → decode w = .unknown w →
    (s.cfg.unknownPolicy = .strict →
      ∃ t, step s = .next t ∧ Raises { s with inputs := rest } t (.unknownOpcode w)) ∧
    (s.cfg.unknownPolicy = .lenient →
      ∃ t, step s = .next t ∧ t.pc = s.pc + 2 ∧ t.diagnostics = s.diagnostics ++ [⟨s.pc, w⟩] ∧
        OnlyChanges { s with inputs := rest, keys := keysIn, rnd := rnd } t [.pc, .diagnostics])

/-- Every `Cycle` and every `Tick`, in every state, ends in a next state, its event taken from the queue (log 1): a fatal
condition is one with HALT set (log 7), and there is no third outcome (00_scope.md section 5, 40_cycle.md section 6). -/
def Obligations.CyclesAndTicksAlwaysComplete : Prop :=
  ∀ (s : State) (e : Event) (rest : List Event), s.inputs = e :: rest → (∀ image, e ≠ .reset image) →
    ∃ t, step s = .next t ∧ t.inputs = rest

/-- A fatal condition is precise: when an event halts a machine that was not halted, the state is the one the event found,
with HALT set and nothing else changed (60_exceptions.md section 2, D18, log 38). -/
def Obligations.FatalConditionsArePrecise : Prop :=
  ∀ (s t : State) (e : Event) (rest : List Event) (f : FatalCondition),
    s.inputs = e :: rest → s.halt = none → step s = .next t → t.halt = some f → t = { s with inputs := rest, halt := some f }

/-- A halted machine does nothing at a cycle or a tick (section 6; 60_exceptions.md section 2; D18, log 38). -/
def Obligations.HaltIsAbsorbing : Prop :=
  ∀ (s : State) (e : Event) (rest : List Event), s.inputs = e :: rest → s.halt ≠ none → (∀ image, e ≠ .reset image) →
    step s = .next { s with inputs := rest }

/-- KEYS is written by the refresh of a cycle and by nothing else: a cycle of a machine that is not halted leaves KEYS at
`keys_in` unless it raised (D18, log 38), a tick leaves KEYS as it was (section 2; 10_state.md section 6). -/
def Obligations.KeysAreTheCycleSnapshot : Prop :=
  ∀ (s t : State) (rest : List Event), step s = .next t → s.halt = none →
    (∀ keysIn rnd, s.inputs = .cycle keysIn rnd :: rest → t.halt = none → t.keys = keysIn) ∧
    (s.inputs = .tick :: rest → t.keys = s.keys)

/-- The wait branch (section 3, D21, log 39): with no key going down between two snapshots only KEYS is refreshed (and the
random byte stored, log 3); else the lowest such key goes to `V[r]`, PC advances by 2 and the wait ends, and no instruction
executes. -/
def Obligations.WaitingCycleWakesOnKeyEdge : Prop :=
  ∀ (s : State) (keysIn : Word) (rnd : Byte) (rest : List Event) (r : RegIdx),
    s.inputs = .cycle keysIn rnd :: rest → s.halt = none → s.wait = some r →
    ((∀ k : Fin 16, keysIn.getLsbD k = true → s.keys.getLsbD k = true) →
      ∃ t, step s = .next t ∧ OnlyChanges { s with inputs := rest, keys := keysIn, rnd := rnd } t []) ∧
    (∀ k : Fin 16, keysIn.getLsbD k = true → s.keys.getLsbD k = false →
      (∀ j : Fin 16, j < k → keysIn.getLsbD j = true → s.keys.getLsbD j = true) →
      ∃ t, step s = .next t ∧ (∀ q, t.reg q = if q = r then BitVec.ofNat 8 k else s.reg q) ∧ t.pc = s.pc + 2 ∧
        t.wait = none ∧ OnlyChanges { s with inputs := rest, keys := keysIn, rnd := rnd } t [.regs, .pc, .wait])

/-! ### Control transfer (41_flow.md) -/

/-- `SYS addr` acts as the Unknown word `0NNN` (D16, log 36): fatal under `Strict`, skipped under `Lenient` with a diagnostic
of PC and the word (R125, R275; the address is the spec's addition D25, the list is log 14). -/
def Obligations.SysActsAsUnknown : Prop :=
  ∀ (s : State) (nnn : Addr12),
    (s.cfg.unknownPolicy = .strict →
      ∃ t, exec (.sys nnn) s = .next t ∧ Raises s t (.unknownOpcode (nnn.zeroExtend 16))) ∧
    (s.cfg.unknownPolicy = .lenient →
      ∃ t, exec (.sys nnn) s = .next t ∧ t.pc = s.pc + 2 ∧
        t.diagnostics = s.diagnostics ++ [⟨s.pc, nnn.zeroExtend 16⟩] ∧ OnlyChanges s t [.pc, .diagnostics])

/-- R121: `RET` pops the stack into PC, used verbatim; with an empty stack it raises `StackUnderflow` and changes nothing. -/
def Obligations.RetPopsReturnAddress : Prop :=
  ∀ s : State,
    (s.sp = 0 → ∃ t, exec .ret s = .next t ∧ Raises s t .stackUnderflow) ∧
    (∀ k : Fin 16, s.sp.val = k.val + 1 →
      ∃ t, exec .ret s = .next t ∧ t.sp.val = k.val ∧ t.pc = s.stack[k] ∧ (∀ j : Fin 16, t.stack[j] = s.stack[j]) ∧
        OnlyChanges s t [.pc, .stack])

/-- R122: `JP addr` sets PC to the zero-extended address and changes nothing else. -/
def Obligations.JpSetsPc : Prop :=
  ∀ (s : State) (nnn : Addr12), ∃ t, exec (.jp nnn) s = .next t ∧ t.pc = nnn.zeroExtend 16 ∧ OnlyChanges s t [.pc]

/-- R123: `CALL addr` pushes `PC + 2` and jumps; with 16 addresses on the stack it raises `StackOverflow` and changes
nothing. -/
def Obligations.CallPushesReturnAddress : Prop :=
  ∀ (s : State) (nnn : Addr12),
    (s.sp = 16 → ∃ t, exec (.call nnn) s = .next t ∧ Raises s t .stackOverflow) ∧
    (∀ k : Fin 16, s.sp.val = k.val →
      ∃ t, exec (.call nnn) s = .next t ∧ t.sp.val = k.val + 1 ∧ t.pc = nnn.zeroExtend 16 ∧
        (∀ j : Fin 16, t.stack[j] = if j = k then s.pc + 2 else s.stack[j]) ∧ OnlyChanges s t [.pc, .stack])

/-- R124: `JP V0, addr` sets PC to the 16-bit sum of the address and V0, whatever the `x` nibble, and changes nothing
else. -/
def Obligations.JpV0AddsV0 : Prop :=
  ∀ (s : State) (nnn : Addr12), ∃ t, exec (.jpV0 nnn) s = .next t ∧
    t.pc.toNat = (nnn.toNat + (s.reg 0).toNat) % 65536 ∧ OnlyChanges s t [.pc]

/-- A `RET` after a `CALL`, wherever the subroutine has taken PC, resumes after the call at the depth the call found
(R121, R123). -/
def Obligations.RetResumesAfterCall : Prop :=
  ∀ (s t : State) (nnn : Addr12) (pc : Word), s.sp ≠ 16 → exec (.call nnn) s = .next t →
    ∃ u, exec .ret { t with pc := pc } = .next u ∧ u.pc = s.pc + 2 ∧ u.sp = s.sp ∧ OnlyChanges t u [.pc, .stack]

/-! ### Skips (42_skip.md) -/

/-- R140, R141: `SE` and `SNE` with a byte: `PC + 4` if the condition holds, else `PC + 2`; nothing else changes. -/
def Obligations.SkipsOnByteComparison : Prop :=
  ∀ (s : State) (x : RegIdx) (nn : Byte),
    (∃ t, exec (.seByte x nn) s = .next t ∧ (s.reg x = nn → t.pc = s.pc + 4) ∧ (s.reg x ≠ nn → t.pc = s.pc + 2) ∧
      OnlyChanges s t [.pc]) ∧
    (∃ t, exec (.sneByte x nn) s = .next t ∧ (s.reg x ≠ nn → t.pc = s.pc + 4) ∧ (s.reg x = nn → t.pc = s.pc + 2) ∧
      OnlyChanges s t [.pc])

/-- R142, R143: `SE` and `SNE` with a register: `PC + 4` if the condition holds, else `PC + 2`; nothing else changes. -/
def Obligations.SkipsOnRegisterComparison : Prop :=
  ∀ (s : State) (x y : RegIdx),
    (∃ t, exec (.seReg x y) s = .next t ∧ (s.reg x = s.reg y → t.pc = s.pc + 4) ∧
      (s.reg x ≠ s.reg y → t.pc = s.pc + 2) ∧ OnlyChanges s t [.pc]) ∧
    (∃ t, exec (.sneReg x y) s = .next t ∧ (s.reg x ≠ s.reg y → t.pc = s.pc + 4) ∧
      (s.reg x = s.reg y → t.pc = s.pc + 2) ∧ OnlyChanges s t [.pc])

/-- `SKP` and `SKNP` test the snapshot KEYS (R144, R145). A code above 0xF is never pressed under the default, and its low
four bits are used under `KEY_INDEX_MODE = mask` (D13, log 33). -/
def Obligations.SkipsOnKeyState : Prop :=
  ∀ (s : State) (x : RegIdx) (k : Fin 16),
    (((s.reg x).toNat = k.val ∨ (s.cfg.keyIndexMode = .mask ∧ (s.reg x).toNat % 16 = k.val)) →
      (∃ t, exec (.skp x) s = .next t ∧ t.pc = (if s.keys.getLsbD k then s.pc + 4 else s.pc + 2) ∧
        OnlyChanges s t [.pc]) ∧
      (∃ t, exec (.sknp x) s = .next t ∧ t.pc = (if s.keys.getLsbD k then s.pc + 2 else s.pc + 4) ∧
        OnlyChanges s t [.pc])) ∧
    (s.cfg.keyIndexMode = .neverPressed → 0x0F < (s.reg x).toNat →
      (∃ t, exec (.skp x) s = .next t ∧ t.pc = s.pc + 2 ∧ OnlyChanges s t [.pc]) ∧
      (∃ t, exec (.sknp x) s = .next t ∧ t.pc = s.pc + 4 ∧ OnlyChanges s t [.pc]))

/-! ### Load and arithmetic (43_alu.md) -/

/-- R160, R162: `LD Vx, byte` and `LD Vx, Vy` write `V[x]` and advance PC; nothing else changes, VF included unless it is
`V[x]`. -/
def Obligations.LoadsWriteOneRegister : Prop :=
  ∀ (s : State) (x y : RegIdx) (nn : Byte),
    (∃ t, exec (.ldByte x nn) s = .next t ∧ (∀ r, t.reg r = if r = x then nn else s.reg r) ∧ t.pc = s.pc + 2 ∧
      OnlyChanges s t [.regs, .pc]) ∧
    (∃ t, exec (.ldReg x y) s = .next t ∧ (∀ r, t.reg r = if r = x then s.reg y else s.reg r) ∧ t.pc = s.pc + 2 ∧
      OnlyChanges s t [.regs, .pc])

/-- R161: `ADD Vx, byte` adds modulo 256 and writes no flag; VF changes only as `V[x]`, to the wrapped sum. -/
def Obligations.AddByteWrapsAndKeepsFlag : Prop :=
  ∀ (s : State) (x : RegIdx) (nn : Byte), ∃ t, exec (.addByte x nn) s = .next t ∧
    (t.reg x).toNat = ((s.reg x).toNat + nn.toNat) % 256 ∧ (∀ r, r ≠ x → t.reg r = s.reg r) ∧ t.pc = s.pc + 2 ∧
    OnlyChanges s t [.regs, .pc]

/-- `OR`, `AND`, `XOR` combine `V[x]` and `V[y]` bit by bit into `V[x]`; VF is not written unless it is `V[x]` (R163 to
R165, D9, log 29). -/
def Obligations.LogicKeepsFlag : Prop :=
  ∀ (s : State) (x y : RegIdx),
    (∃ t, exec (.orReg x y) s = .next t ∧
      (∀ k, (t.reg x).getLsbD k = ((s.reg x).getLsbD k || (s.reg y).getLsbD k)) ∧ (∀ r, r ≠ x → t.reg r = s.reg r) ∧
      t.pc = s.pc + 2 ∧ OnlyChanges s t [.regs, .pc]) ∧
    (∃ t, exec (.andReg x y) s = .next t ∧
      (∀ k, (t.reg x).getLsbD k = ((s.reg x).getLsbD k && (s.reg y).getLsbD k)) ∧ (∀ r, r ≠ x → t.reg r = s.reg r) ∧
      t.pc = s.pc + 2 ∧ OnlyChanges s t [.regs, .pc]) ∧
    (∃ t, exec (.xorReg x y) s = .next t ∧
      (∀ k, (t.reg x).getLsbD k = ((s.reg x).getLsbD k ^^ (s.reg y).getLsbD k)) ∧ (∀ r, r ≠ x → t.reg r = s.reg r) ∧
      t.pc = s.pc + 2 ∧ OnlyChanges s t [.regs, .pc])

/-- `ADD Vx, Vy`: the carry of the exact sum is VF afterwards for every `x` (when `x = F` it is what remains, D8, log 28),
the sum modulo 256 is `V[x]` when `x` is not F; the operands are the values before (R166, R172). -/
def Obligations.AddSetsCarry : Prop :=
  ∀ (s : State) (x y : RegIdx), ∃ t, exec (.addReg x y) s = .next t ∧
    t.reg vf = (if 255 < (s.reg x).toNat + (s.reg y).toNat then 1 else 0) ∧
    (x ≠ vf → (t.reg x).toNat = ((s.reg x).toNat + (s.reg y).toNat) % 256) ∧
    (∀ r, r ≠ x → r ≠ vf → t.reg r = s.reg r) ∧ t.pc = s.pc + 2 ∧ OnlyChanges s t [.regs, .pc]

/-- `SUB` and `SUBN`: the difference modulo 256 is `V[x]` when `x` is not F, and VF is 1 exactly if the subtraction does not
borrow, equal operands included; when `x = F` the flag remains (R167, R169, R172, D8, log 28). -/
def Obligations.SubtractionsSetNoBorrow : Prop :=
  ∀ (s : State) (x y : RegIdx),
    (∃ t, exec (.subReg x y) s = .next t ∧
      t.reg vf = (if (s.reg y).toNat ≤ (s.reg x).toNat then 1 else 0) ∧
      (x ≠ vf → (t.reg x).toNat = (256 + (s.reg x).toNat - (s.reg y).toNat) % 256) ∧
      (∀ r, r ≠ x → r ≠ vf → t.reg r = s.reg r) ∧ t.pc = s.pc + 2 ∧ OnlyChanges s t [.regs, .pc]) ∧
    (∃ t, exec (.subnReg x y) s = .next t ∧
      t.reg vf = (if (s.reg x).toNat ≤ (s.reg y).toNat then 1 else 0) ∧
      (x ≠ vf → (t.reg x).toNat = (256 + (s.reg y).toNat - (s.reg x).toNat) % 256) ∧
      (∀ r, r ≠ x → r ≠ vf → t.reg r = s.reg r) ∧ t.pc = s.pc + 2 ∧ OnlyChanges s t [.regs, .pc])

/-- `SHR` and `SHL` shift their source by one bit into `V[x]`, and VF is the bit shifted out; the source is `V[x]` under
`SHIFT_SOURCE = vx` and `V[y]` under `vy` (R168, R170; D7, log 27; D8, log 28). -/
def Obligations.ShiftsSetBitOut : Prop :=
  ∀ (s : State) (x y : RegIdx) (src : Byte),
    src = (if s.cfg.shiftSource = .vx then s.reg x else s.reg y) →
    (∃ t, exec (.shr x y) s = .next t ∧
      (t.reg vf).toNat = src.toNat % 2 ∧ (x ≠ vf → (t.reg x).toNat = src.toNat / 2) ∧
      (∀ r, r ≠ x → r ≠ vf → t.reg r = s.reg r) ∧ t.pc = s.pc + 2 ∧ OnlyChanges s t [.regs, .pc]) ∧
    (∃ t, exec (.shl x y) s = .next t ∧
      (t.reg vf).toNat = src.toNat / 128 ∧ (x ≠ vf → (t.reg x).toNat = src.toNat * 2 % 256) ∧
      (∀ r, r ≠ x → r ≠ vf → t.reg r = s.reg r) ∧ t.pc = s.pc + 2 ∧ OnlyChanges s t [.regs, .pc])

/-- `RND Vx, byte`: the cycle's random byte, whatever it is (a free input, D22, log 40, held in `rnd`, log 3), masked with the
byte; no flag (R171). -/
def Obligations.RndMasksTheRandomByte : Prop :=
  ∀ (s : State) (x : RegIdx) (nn : Byte), ∃ t, exec (.rnd x nn) s = .next t ∧
    (∀ k, (t.reg x).getLsbD k = (s.rnd.getLsbD k && nn.getLsbD k)) ∧ (∀ r, r ≠ x → t.reg r = s.reg r) ∧
    t.pc = s.pc + 2 ∧ OnlyChanges s t [.regs, .pc]

/-! ### Index register and memory transfer (44_index_memory.md) -/

/-- R190: `LD I, addr` loads the zero-extended address into I and advances PC; nothing else changes. -/
def Obligations.LdISetsIndex : Prop :=
  ∀ (s : State) (nnn : Addr12), ∃ t, exec (.ldI nnn) s = .next t ∧ t.i = nnn.zeroExtend 16 ∧ t.pc = s.pc + 2 ∧
    OnlyChanges s t [.index, .pc]

/-- R191: `ADD I, Vx` adds modulo 65536, not 4096, raises nothing and leaves VF and every other register as it was. -/
def Obligations.AddIWrapsWithinSixteenBits : Prop :=
  ∀ (s : State) (x : RegIdx), ∃ t, exec (.addI x) s = .next t ∧ t.i.toNat = (s.i.toNat + (s.reg x).toNat) % 65536 ∧
    t.pc = s.pc + 2 ∧ OnlyChanges s t [.index, .pc]

/-- `LD F, Vx` sets I to five times the digit: the whole byte under `FX29_MODE = multiply`, its low four bits under `mask`
(R192, D14, log 34). -/
def Obligations.LdFComputesFontAddress : Prop :=
  ∀ (s : State) (x : RegIdx), ∃ t, exec (.ldF x) s = .next t ∧
    (s.cfg.fx29Mode = .multiply → t.i.toNat = 5 * (s.reg x).toNat) ∧
    (s.cfg.fx29Mode = .mask → t.i.toNat = 5 * ((s.reg x).toNat % 16)) ∧
    t.pc = s.pc + 2 ∧ OnlyChanges s t [.index, .pc]

/-- `LD B, Vx` stores hundreds, tens and ones of `V[x]` in the cells of I, I+1, I+2 and changes no other byte; out of range
it raises and changes nothing (R193, D11, log 31; D3, log 23; canonical memory: log 11). -/
def Obligations.LdBStoresDecimalDigits : Prop :=
  ∀ (s : State) (x : RegIdx), s.mem.wf = true →
    (InRange s 3 → ∃ t, exec (.ldB x) s = .next t ∧
      (t.mem.read (itemCell s 0)).toNat = (s.reg x).toNat / 100 ∧
      (t.mem.read (itemCell s 1)).toNat = (s.reg x).toNat / 10 % 10 ∧
      (t.mem.read (itemCell s 2)).toNat = (s.reg x).toNat % 10 ∧
      (∀ a, (∀ k, k < 3 → a ≠ itemCell s k) → t.mem.read a = s.mem.read a) ∧
      t.pc = s.pc + 2 ∧ OnlyChanges s t [.mem, .pc]) ∧
    (¬ InRange s 3 → ∃ t, exec (.ldB x) s = .next t ∧ Raises s t (.memoryOutOfRange (firstOutOfRange s)))

/-- `LD [I], Vx` stores V0 to Vx in the cells of I to I + x and changes no other byte, nor I (D10, log 30); out of range it
raises and changes nothing (R194; D3, log 23; canonical memory: log 11). -/
def Obligations.BlockStoreWritesRegisters : Prop :=
  ∀ (s : State) (x : RegIdx), s.mem.wf = true →
    (InRange s (x.toNat + 1) → ∃ t, exec (.ldMemVx x) s = .next t ∧
      (∀ r : RegIdx, r ≤ x → t.mem.read (itemCell s r.toNat) = s.reg r) ∧
      (∀ a, (∀ k, k ≤ x.toNat → a ≠ itemCell s k) → t.mem.read a = s.mem.read a) ∧
      t.pc = s.pc + 2 ∧ OnlyChanges s t [.mem, .pc]) ∧
    (¬ InRange s (x.toNat + 1) →
      ∃ t, exec (.ldMemVx x) s = .next t ∧ Raises s t (.memoryOutOfRange (firstOutOfRange s)))

/-- `LD Vx, [I]` loads V0 to Vx from the cells of I to I + x; the registers above Vx, I and memory are unchanged (D10, log
30); out of range it raises and changes nothing (R195; D3, log 23). -/
def Obligations.BlockLoadReadsRegisters : Prop :=
  ∀ (s : State) (x : RegIdx),
    (InRange s (x.toNat + 1) → ∃ t, exec (.ldVxMem x) s = .next t ∧
      (∀ r : RegIdx, t.reg r = if r ≤ x then s.mem.read (itemCell s r.toNat) else s.reg r) ∧
      t.pc = s.pc + 2 ∧ OnlyChanges s t [.regs, .pc]) ∧
    (¬ InRange s (x.toNat + 1) →
      ∃ t, exec (.ldVxMem x) s = .next t ∧ Raises s t (.memoryOutOfRange (firstOutOfRange s)))

/-- A store is seen by the very next fetch: after `LD [I], Vx` with `I = PC + 2` and `x` at least 1, the word fetched is V0,
the high byte, and V1 (20_memory.md section 7; the byte order, section 4, is D1, log 21; canonical memory: log 11). -/
def Obligations.StoreIsSeenByNextFetch : Prop :=
  ∀ (s t : State) (x : RegIdx), s.mem.wf = true → 1 ≤ x.toNat → s.i = s.pc + 2 → s.i.toNat + x.toNat ≤ 0xFFF →
    exec (.ldMemVx x) s = .next t → fetch t = .ok (wordOfBytes (s.reg 0) (s.reg 1))

/-! ### Display (45_display.md) -/

/-- R210: `CLS` clears all 2048 pixels and advances PC; VF and everything else is unchanged. -/
def Obligations.ClsClearsFramebuffer : Prop :=
  ∀ s : State, ∃ t, exec .cls s = .next t ∧ (∀ r c, t.pixel r c = false) ∧ t.pc = s.pc + 2 ∧ OnlyChanges s t [.screen, .pc]

/-- `DRW` complements exactly the pixels its sprite covers, VF is 1 if one of them was set and else 0, also for `n = 0`; the
coordinates are the registers before the flag is written; out of range it raises and changes nothing (R211, R213; D5, log
25; D12, log 32; D29, log 44; D3, log 23). -/
def Obligations.DrwXorsSpriteAndSetsCollision : Prop :=
  ∀ (s : State) (x y : RegIdx) (n : Nibble),
    (InRange s n.toNat → ∃ t, exec (.drw x y n) s = .next t ∧
      (∀ r c, SpriteCovers s x y n r c → t.pixel r c = !s.pixel r c) ∧
      (∀ r c, ¬ SpriteCovers s x y n r c → t.pixel r c = s.pixel r c) ∧
      ((∃ r c, SpriteCovers s x y n r c ∧ s.pixel r c = true) → t.reg vf = 1) ∧
      ((∀ r c, SpriteCovers s x y n r c → s.pixel r c = false) → t.reg vf = 0) ∧
      (∀ r, r ≠ vf → t.reg r = s.reg r) ∧ t.pc = s.pc + 2 ∧ OnlyChanges s t [.screen, .regs, .pc]) ∧
    (¬ InRange s n.toNat →
      ∃ t, exec (.drw x y n) s = .next t ∧ Raises s t (.memoryOutOfRange (firstOutOfRange s)))

/-- Drawing the same sprite a second time restores the framebuffer, and VF is 1 then if the sprite covers a pixel that
was not set before the first draw, else 0 (95_test_vectors.md S5, 45_display.md R211; what is covered rests on D5, log 25,
and D12, log 32, what is in range on D3, log 23). -/
def Obligations.DrawingTwiceRestoresTheScreen : Prop :=
  ∀ (s t u : State) (x y : RegIdx) (n : Nibble), x ≠ vf → y ≠ vf → InRange s n.toNat →
    exec (.drw x y n) s = .next t → exec (.drw x y n) t = .next u →
    (∀ r c, u.pixel r c = s.pixel r c) ∧
    ((∃ r c, SpriteCovers s x y n r c ∧ s.pixel r c = false) → u.reg vf = 1) ∧
    ((∀ r c, SpriteCovers s x y n r c → s.pixel r c = true) → u.reg vf = 0)

/-! ### Timers and key wait (46_timer_key.md, 60_exceptions.md) -/

/-- R230: `LD Vx, DT` reads the delay timer into `V[x]`; the timer and everything else is unchanged. -/
def Obligations.LdVxDtReadsDelayTimer : Prop :=
  ∀ (s : State) (x : RegIdx), ∃ t, exec (.ldVxDt x) s = .next t ∧ (∀ r, t.reg r = if r = x then s.dt else s.reg r) ∧
    t.pc = s.pc + 2 ∧ OnlyChanges s t [.regs, .pc]

/-- `LD DT, Vx` and `LD ST, Vx` load their timer and advance PC (R232, R233); the tone, a level, is on right afterwards
exactly if ST is not 0 (R266, D23, log 41; log 20). -/
def Obligations.TimerLoadsWriteOneTimer : Prop :=
  ∀ (s : State) (x : RegIdx),
    (∃ t, exec (.ldDtVx x) s = .next t ∧ t.dt = s.reg x ∧ t.pc = s.pc + 2 ∧ OnlyChanges s t [.delay, .pc]) ∧
    (∃ t, exec (.ldStVx x) s = .next t ∧ t.st = s.reg x ∧ (t.tone = true ↔ s.reg x ≠ 0) ∧ t.pc = s.pc + 2 ∧
      OnlyChanges s t [.sound, .pc])

/-- `LD Vx, K` sets WAIT to `x` and nothing else: PC is not advanced and no key is tested (R231, D21, log 39). -/
def Obligations.LdVxKStartsTheWait : Prop :=
  ∀ (s : State) (x : RegIdx), ∃ t, exec (.ldVxK x) s = .next t ∧ t.wait = some x ∧ OnlyChanges s t [.wait]

/-- R264: a tick decrements each timer that is not 0 by one and changes nothing else; a halted machine's tick changes
nothing. -/
def Obligations.TickDecrementsNonzeroTimers : Prop :=
  ∀ (s : State) (rest : List Event), s.inputs = .tick :: rest →
    (s.halt = none → ∃ t, step s = .next t ∧ t.dt.toNat = s.dt.toNat - 1 ∧ t.st.toNat = s.st.toNat - 1 ∧
      OnlyChanges { s with inputs := rest } t [.delay, .sound]) ∧
    (s.halt ≠ none → ∃ t, step s = .next t ∧ OnlyChanges { s with inputs := rest } t [])

/-- After `n` ticks in a row each timer has lost `n`, stopping at 0, and nothing else has changed: a timer loaded with `v` is
zero after exactly `v` ticks (60_exceptions.md section 5). -/
def Obligations.TimerIsZeroAfterItsCountOfTicks : Prop :=
  ∀ (n : Nat) (s : State) (rest : List Event), s.inputs = List.replicate n .tick ++ rest → s.halt = none →
    ∃ t, Host.Core.run Sys2Proof.core n s = .next t ∧ t.dt.toNat = s.dt.toNat - n ∧ t.st.toNat = s.st.toNat - n ∧
      OnlyChanges { s with inputs := rest } t [.delay, .sound]

/-! ### Rules about the whole machine -/

/-- What executing an instruction may write, part by part, for every instruction (10_state.md R22 to R31, R37; 20_memory.md
R51; 40_cycle.md R105; 45_display.md R212; 46_timer_key.md R234; 60_exceptions.md R281): a part that differs afterwards names
the instructions, a register the instructions that name it as `x` or, for VF, the six flag writers of R22. That the logic
instructions leave VF alone is D9 (log 29), that the block transfers leave I alone D10 (log 30); raising rests on D3 (log
23), D16 (log 36) and D18 (log 38); the record of diagnostics (R125, R275) is log 14. -/
def Obligations.EachPartHasItsWriters : Prop :=
  ∀ (i : Instr) (s t : State), exec i s = .next t →
    (¬ Agrees s t .mem → ∃ x, i = .ldB x ∨ i = .ldMemVx x) ∧
    (∀ r, t.reg r ≠ s.reg r →
      (∃ nn, i = .ldByte r nn ∨ i = .addByte r nn ∨ i = .rnd r nn) ∨
      (∃ y, i = .ldReg r y ∨ i = .orReg r y ∨ i = .andReg r y ∨ i = .xorReg r y ∨ i = .addReg r y ∨ i = .subReg r y ∨
        i = .shr r y ∨ i = .subnReg r y ∨ i = .shl r y) ∨
      i = .ldVxDt r ∨
      (∃ x, r ≤ x ∧ i = .ldVxMem x) ∨
      (r = vf ∧ ((∃ x y, i = .addReg x y ∨ i = .subReg x y ∨ i = .shr x y ∨ i = .subnReg x y ∨ i = .shl x y) ∨
        ∃ x y n, i = .drw x y n))) ∧
    (¬ Agrees s t .pc →
      t.halt = s.halt ∧ (∀ x, i ≠ .ldVxK x) ∧
      (t.pc = s.pc + 2 ∨ i = .ret ∨ (∃ nnn, i = .jp nnn ∨ i = .call nnn ∨ i = .jpV0 nnn) ∨
        (t.pc = s.pc + 4 ∧ ((∃ x nn, i = .seByte x nn ∨ i = .sneByte x nn) ∨ (∃ x y, i = .seReg x y ∨ i = .sneReg x y) ∨
          ∃ x, i = .skp x ∨ i = .sknp x)))) ∧
    (¬ Agrees s t .halt →
      ∃ f, Raises s t f ∧
        (i = .ret ∨ (∃ nnn, i = .call nnn ∨ i = .sys nnn) ∨ (∃ x y n, i = .drw x y n) ∨
          ∃ x, i = .ldB x ∨ i = .ldMemVx x ∨ i = .ldVxMem x)) ∧
    (¬ Agrees s t .screen → i = .cls ∨ ∃ x y n, i = .drw x y n) ∧
    (¬ Agrees s t .stack → i = .ret ∨ ∃ nnn, i = .call nnn) ∧
    (¬ Agrees s t .index → (∃ nnn, i = .ldI nnn) ∨ ∃ x, i = .addI x ∨ i = .ldF x) ∧
    (¬ Agrees s t .delay → ∃ x, i = .ldDtVx x) ∧
    (¬ Agrees s t .sound → ∃ x, i = .ldStVx x) ∧
    (¬ Agrees s t .wait → ∃ x, i = .ldVxK x) ∧
    (¬ Agrees s t .diagnostics → ∃ nnn, i = .sys nnn) ∧
    Agrees s t .keys

/-- Which instruction raises what, and when; every other instruction raises nothing, for every operand value and every state
(60_exceptions.md sections 1 and 8; `MemoryOutOfRange` and its information value are D3, log 23; SYS as an Unknown word is
D16, log 36). -/
def Obligations.OnlyTheListedInstructionsRaise : Prop :=
  ∀ (i : Instr) (s t : State), exec i s = .next t → s.halt = none → t.halt ≠ none →
    (t.halt = some .stackOverflow ∧ s.sp = 16 ∧ ∃ nnn, i = .call nnn) ∨
    (t.halt = some .stackUnderflow ∧ s.sp = 0 ∧ i = .ret) ∨
    (s.cfg.unknownPolicy = .strict ∧ ∃ nnn, i = .sys nnn ∧ t.halt = some (.unknownOpcode (encode i))) ∨
    (s.cfg.oobPolicy = .fault ∧ t.halt = some (.memoryOutOfRange (firstOutOfRange s)) ∧
      ¬ InRange s (transferLength i) ∧
      ((∃ x y n, i = .drw x y n) ∨ ∃ x, i = .ldB x ∨ i = .ldMemVx x ∨ i = .ldVxMem x))

/-- Over a whole cycle, memory changes only through `LD B` and `LD [I]`, the framebuffer only through `DRW` and `CLS`, DT only
through `LD DT` and ST only through `LD ST` (20_memory.md R51 and R66, 45_display.md R212, 46_timer_key.md R234). -/
def Obligations.CycleWritersAreTheDecodedInstruction : Prop :=
  ∀ (s t : State) (keysIn : Word) (rnd : Byte) (rest : List Event),
    s.inputs = .cycle keysIn rnd :: rest → step s = .next t →
    (¬ Agrees s t .mem → ∃ w x, fetch s = .ok w ∧ (decode w = .instr (.ldB x) ∨ decode w = .instr (.ldMemVx x))) ∧
    (¬ Agrees s t .screen →
      ∃ w, fetch s = .ok w ∧ (decode w = .instr .cls ∨ ∃ x y n, decode w = .instr (.drw x y n))) ∧
    (¬ Agrees s t .delay → ∃ w x, fetch s = .ok w ∧ decode w = .instr (.ldDtVx x)) ∧
    (¬ Agrees s t .sound → ∃ w x, fetch s = .ok w ∧ decode w = .instr (.ldStVx x))

/-- No event changes the configuration (10_state.md section 7, D32, log 47). -/
def Obligations.ConfigurationNeverChanges : Prop :=
  ∀ s t : State, step s = .next t → t.cfg = s.cfg

/-- An idle loop `JP PC` stays as it is at every further cycle, apart from KEYS and the random byte (log 3)
(70_reset_and_hazards.md section 4, D34, log 48). -/
def Obligations.IdleLoopStays : Prop :=
  ∀ (s : State) (keysIn : Word) (rnd : Byte) (rest : List Event), s.inputs = .cycle keysIn rnd :: rest → s.IdleLoop →
    ∃ t, step s = .next t ∧ t.IdleLoop ∧ OnlyChanges { s with inputs := rest, keys := keysIn, rnd := rnd } t []

/-- A machine that waits for ever (70_reset_and_hazards.md section 4, D34, log 48; an edge as in D21, log 39) runs for ever:
after any number `n` of the events to come it still waits for the same register, and for ever, KEYS is the last snapshot, and
nothing but KEYS, DT and ST (and the random byte, log 3) has changed. -/
def Obligations.WaitingForeverStays : Prop :=
  ∀ (n : Nat) (s : State) (events : Nat → Event) (rest : List Event), s.WaitsForever events →
    s.inputs = (List.range n).map events ++ rest →
    ∃ t, Host.Core.run Sys2Proof.core n s = .next t ∧ t.wait = s.wait ∧ t.WaitsForever (fun k => events (n + k)) ∧
      t.keys = keysBefore s.keys events n ∧
      OnlyChanges { s with inputs := rest, rnd := t.rnd } t [.keys, .delay, .sound]

/-! ### Reset (70_reset_and_hazards.md, 10_state.md section 11) -/

/-- `Reset(image)` is refused for an empty image and for one over 3584 bytes, whatever the state (section 2; the empty image
D26, log 42; a refusal is this model's `Fault.loadError`, log 12). -/
def Obligations.ResetRefusesBadImages : Prop :=
  ∀ (s : State) (image : List Byte) (rest : List Event), s.inputs = .reset image :: rest →
    (image.length = 0 → step s = .fault (.loadError .empty)) ∧
    (3584 < image.length → step s = .fault (.loadError .tooLarge))

/-- `Reset(image)` with 1 to 3584 bytes replaces the whole state, HALT (D18, log 38) included: font at 0, image at 0x200, zero
elsewhere, PC at 0x200, every other member zero or `None` (sections 1 and 2; the values of V, I, DT, ST, FB, KEYS, WAIT and
the stack slots are D15, log 35; canonical memory: log 11; the configuration and the environment's records are kept, log
13). -/
def Obligations.ResetReplacesTheWholeState : Prop :=
  ∀ (s : State) (image : List Byte) (rest : List Event), s.inputs = .reset image :: rest →
    1 ≤ image.length → image.length ≤ 3584 →
    ∃ t, step s = .next t ∧
      (∀ d k : Nat, ∀ (hd : d < 16) (hk : k < 5), t.mem.read (5 * d + k) = (s.cfg.font[d])[k]) ∧
      (∀ a, 0x50 ≤ a → a < 0x200 → t.mem.read a = 0) ∧
      (∀ j, ∀ h : j < image.length, t.mem.read (0x200 + j) = image[j]) ∧
      (∀ a, 0x200 + image.length ≤ a → a < 4096 → t.mem.read a = 0) ∧
      t.pc = 0x200 ∧ t.sp = 0 ∧ (∀ r, t.reg r = 0) ∧ t.i = 0 ∧ t.dt = 0 ∧ t.st = 0 ∧ (∀ r c, t.pixel r c = false) ∧
      t.keys = 0 ∧ t.wait = none ∧ t.halt = none ∧ (∀ k : Fin 16, t.stack[k] = 0) ∧ t.mem.wf = true ∧
      t.cfg = s.cfg ∧ t.inputs = rest

/-- The state before an image is loaded (log 9): PC at 0x200 and the empty stack are the source's, the other values D15's (log
35); memory reads as the default font and zeros (D4, log 24; log 11), the machine neither halts (D18, log 38) nor waits, and
the tone, a level (D23, log 41), is off (sections 11 and 12). -/
def Obligations.ResetStateValues : Prop :=
  State.reset.pc = 0x200 ∧ State.reset.sp = 0 ∧ (∀ r, State.reset.reg r = 0) ∧ State.reset.i = 0 ∧
  State.reset.dt = 0 ∧ State.reset.st = 0 ∧ State.reset.tone = false ∧ (∀ r c, State.reset.pixel r c = false) ∧
  State.reset.keys = 0 ∧ State.reset.wait = none ∧ State.reset.halt = none ∧
  (∀ d k : Nat, ∀ (hd : d < 16) (hk : k < 5), State.reset.mem.read (5 * d + k) = (defaultFont[d])[k]) ∧
  (∀ a, 0x50 ≤ a → State.reset.mem.read a = 0)

/-! ### The invariant (10_state.md section 10) -/

/-- The invariant holds at reset (WAIT and the stack slots are D15's, log 35; the canonical form is log 11). -/
def Obligations.InvariantHoldsAtReset : Prop := State.reset.Inv

/-- Every step, whatever the event, keeps the invariant: memory stays canonical (log 11), a waiting machine's PC addresses the
`LD Vx, K` it waits for, PC never wraps under the fault policy, and a halted machine's PC and information value identify the
cause (10_state.md sections 4 and 10, 60_exceptions.md sections 1 and 2). That a halt is precise is D18 (log 38),
`MemoryOutOfRange` with its value D3 (log 23), SYS as an Unknown word D16 (log 36). -/
def Obligations.StepKeepsInvariant : Prop :=
  ∀ s t : State, s.Inv → step s = .next t → t.Inv
end

