-- ==== Sys2Proof/Laws/State.lean ====
section
/-! SUPPORT. One lemma per field per update of State, true by rfl, so that no proof unfolds a record update. -/

namespace Sys2Proof.Machine

/-! `setReg` -/

@[simp] theorem State.setReg_mem (s : State) (x : RegIdx) (b : Byte) : (s.setReg x b).mem = s.mem := rfl
@[simp] theorem State.setReg_v (s : State) (x : RegIdx) (b : Byte) : (s.setReg x b).v = s.v.set x.toNat b x.isLt := rfl
@[simp] theorem State.setReg_i (s : State) (x : RegIdx) (b : Byte) : (s.setReg x b).i = s.i := rfl
@[simp] theorem State.setReg_pc (s : State) (x : RegIdx) (b : Byte) : (s.setReg x b).pc = s.pc := rfl
@[simp] theorem State.setReg_stack (s : State) (x : RegIdx) (b : Byte) : (s.setReg x b).stack = s.stack := rfl
@[simp] theorem State.setReg_sp (s : State) (x : RegIdx) (b : Byte) : (s.setReg x b).sp = s.sp := rfl
@[simp] theorem State.setReg_dt (s : State) (x : RegIdx) (b : Byte) : (s.setReg x b).dt = s.dt := rfl
@[simp] theorem State.setReg_st (s : State) (x : RegIdx) (b : Byte) : (s.setReg x b).st = s.st := rfl
@[simp] theorem State.setReg_fb (s : State) (x : RegIdx) (b : Byte) : (s.setReg x b).fb = s.fb := rfl
@[simp] theorem State.setReg_keys (s : State) (x : RegIdx) (b : Byte) : (s.setReg x b).keys = s.keys := rfl
@[simp] theorem State.setReg_wait (s : State) (x : RegIdx) (b : Byte) : (s.setReg x b).wait = s.wait := rfl
@[simp] theorem State.setReg_halt (s : State) (x : RegIdx) (b : Byte) : (s.setReg x b).halt = s.halt := rfl
@[simp] theorem State.setReg_cfg (s : State) (x : RegIdx) (b : Byte) : (s.setReg x b).cfg = s.cfg := rfl
@[simp] theorem State.setReg_rnd (s : State) (x : RegIdx) (b : Byte) : (s.setReg x b).rnd = s.rnd := rfl
@[simp] theorem State.setReg_inputs (s : State) (x : RegIdx) (b : Byte) : (s.setReg x b).inputs = s.inputs := rfl
@[simp] theorem State.setReg_drawn (s : State) (x : RegIdx) (b : Byte) : (s.setReg x b).drawn = s.drawn := rfl
@[simp] theorem State.setReg_diagnostics (s : State) (x : RegIdx) (b : Byte) : (s.setReg x b).diagnostics = s.diagnostics := rfl

/-! `setI` -/

@[simp] theorem State.setI_mem (s : State) (w : Word) : (s.setI w).mem = s.mem := rfl
@[simp] theorem State.setI_v (s : State) (w : Word) : (s.setI w).v = s.v := rfl
@[simp] theorem State.setI_i (s : State) (w : Word) : (s.setI w).i = w := rfl
@[simp] theorem State.setI_pc (s : State) (w : Word) : (s.setI w).pc = s.pc := rfl
@[simp] theorem State.setI_stack (s : State) (w : Word) : (s.setI w).stack = s.stack := rfl
@[simp] theorem State.setI_sp (s : State) (w : Word) : (s.setI w).sp = s.sp := rfl
@[simp] theorem State.setI_dt (s : State) (w : Word) : (s.setI w).dt = s.dt := rfl
@[simp] theorem State.setI_st (s : State) (w : Word) : (s.setI w).st = s.st := rfl
@[simp] theorem State.setI_fb (s : State) (w : Word) : (s.setI w).fb = s.fb := rfl
@[simp] theorem State.setI_keys (s : State) (w : Word) : (s.setI w).keys = s.keys := rfl
@[simp] theorem State.setI_wait (s : State) (w : Word) : (s.setI w).wait = s.wait := rfl
@[simp] theorem State.setI_halt (s : State) (w : Word) : (s.setI w).halt = s.halt := rfl
@[simp] theorem State.setI_cfg (s : State) (w : Word) : (s.setI w).cfg = s.cfg := rfl
@[simp] theorem State.setI_rnd (s : State) (w : Word) : (s.setI w).rnd = s.rnd := rfl
@[simp] theorem State.setI_inputs (s : State) (w : Word) : (s.setI w).inputs = s.inputs := rfl
@[simp] theorem State.setI_drawn (s : State) (w : Word) : (s.setI w).drawn = s.drawn := rfl
@[simp] theorem State.setI_diagnostics (s : State) (w : Word) : (s.setI w).diagnostics = s.diagnostics := rfl

/-! `setPc` -/

@[simp] theorem State.setPc_mem (s : State) (w : Word) : (s.setPc w).mem = s.mem := rfl
@[simp] theorem State.setPc_v (s : State) (w : Word) : (s.setPc w).v = s.v := rfl
@[simp] theorem State.setPc_i (s : State) (w : Word) : (s.setPc w).i = s.i := rfl
@[simp] theorem State.setPc_pc (s : State) (w : Word) : (s.setPc w).pc = w := rfl
@[simp] theorem State.setPc_stack (s : State) (w : Word) : (s.setPc w).stack = s.stack := rfl
@[simp] theorem State.setPc_sp (s : State) (w : Word) : (s.setPc w).sp = s.sp := rfl
@[simp] theorem State.setPc_dt (s : State) (w : Word) : (s.setPc w).dt = s.dt := rfl
@[simp] theorem State.setPc_st (s : State) (w : Word) : (s.setPc w).st = s.st := rfl
@[simp] theorem State.setPc_fb (s : State) (w : Word) : (s.setPc w).fb = s.fb := rfl
@[simp] theorem State.setPc_keys (s : State) (w : Word) : (s.setPc w).keys = s.keys := rfl
@[simp] theorem State.setPc_wait (s : State) (w : Word) : (s.setPc w).wait = s.wait := rfl
@[simp] theorem State.setPc_halt (s : State) (w : Word) : (s.setPc w).halt = s.halt := rfl
@[simp] theorem State.setPc_cfg (s : State) (w : Word) : (s.setPc w).cfg = s.cfg := rfl
@[simp] theorem State.setPc_rnd (s : State) (w : Word) : (s.setPc w).rnd = s.rnd := rfl
@[simp] theorem State.setPc_inputs (s : State) (w : Word) : (s.setPc w).inputs = s.inputs := rfl
@[simp] theorem State.setPc_drawn (s : State) (w : Word) : (s.setPc w).drawn = s.drawn := rfl
@[simp] theorem State.setPc_diagnostics (s : State) (w : Word) : (s.setPc w).diagnostics = s.diagnostics := rfl

/-! `advance` -/

@[simp] theorem State.advance_mem (s : State) : (s.advance).mem = s.mem := rfl
@[simp] theorem State.advance_v (s : State) : (s.advance).v = s.v := rfl
@[simp] theorem State.advance_i (s : State) : (s.advance).i = s.i := rfl
@[simp] theorem State.advance_pc (s : State) : (s.advance).pc = s.pc + 2 := rfl
@[simp] theorem State.advance_stack (s : State) : (s.advance).stack = s.stack := rfl
@[simp] theorem State.advance_sp (s : State) : (s.advance).sp = s.sp := rfl
@[simp] theorem State.advance_dt (s : State) : (s.advance).dt = s.dt := rfl
@[simp] theorem State.advance_st (s : State) : (s.advance).st = s.st := rfl
@[simp] theorem State.advance_fb (s : State) : (s.advance).fb = s.fb := rfl
@[simp] theorem State.advance_keys (s : State) : (s.advance).keys = s.keys := rfl
@[simp] theorem State.advance_wait (s : State) : (s.advance).wait = s.wait := rfl
@[simp] theorem State.advance_halt (s : State) : (s.advance).halt = s.halt := rfl
@[simp] theorem State.advance_cfg (s : State) : (s.advance).cfg = s.cfg := rfl
@[simp] theorem State.advance_rnd (s : State) : (s.advance).rnd = s.rnd := rfl
@[simp] theorem State.advance_inputs (s : State) : (s.advance).inputs = s.inputs := rfl
@[simp] theorem State.advance_drawn (s : State) : (s.advance).drawn = s.drawn := rfl
@[simp] theorem State.advance_diagnostics (s : State) : (s.advance).diagnostics = s.diagnostics := rfl

/-! `skipIf` -/

@[simp] theorem State.skipIf_mem (s : State) (c : Bool) : (s.skipIf c).mem = s.mem := rfl
@[simp] theorem State.skipIf_v (s : State) (c : Bool) : (s.skipIf c).v = s.v := rfl
@[simp] theorem State.skipIf_i (s : State) (c : Bool) : (s.skipIf c).i = s.i := rfl
@[simp] theorem State.skipIf_pc (s : State) (c : Bool) : (s.skipIf c).pc = if c then s.pc + 4 else s.pc + 2 := rfl
@[simp] theorem State.skipIf_stack (s : State) (c : Bool) : (s.skipIf c).stack = s.stack := rfl
@[simp] theorem State.skipIf_sp (s : State) (c : Bool) : (s.skipIf c).sp = s.sp := rfl
@[simp] theorem State.skipIf_dt (s : State) (c : Bool) : (s.skipIf c).dt = s.dt := rfl
@[simp] theorem State.skipIf_st (s : State) (c : Bool) : (s.skipIf c).st = s.st := rfl
@[simp] theorem State.skipIf_fb (s : State) (c : Bool) : (s.skipIf c).fb = s.fb := rfl
@[simp] theorem State.skipIf_keys (s : State) (c : Bool) : (s.skipIf c).keys = s.keys := rfl
@[simp] theorem State.skipIf_wait (s : State) (c : Bool) : (s.skipIf c).wait = s.wait := rfl
@[simp] theorem State.skipIf_halt (s : State) (c : Bool) : (s.skipIf c).halt = s.halt := rfl
@[simp] theorem State.skipIf_cfg (s : State) (c : Bool) : (s.skipIf c).cfg = s.cfg := rfl
@[simp] theorem State.skipIf_rnd (s : State) (c : Bool) : (s.skipIf c).rnd = s.rnd := rfl
@[simp] theorem State.skipIf_inputs (s : State) (c : Bool) : (s.skipIf c).inputs = s.inputs := rfl
@[simp] theorem State.skipIf_drawn (s : State) (c : Bool) : (s.skipIf c).drawn = s.drawn := rfl
@[simp] theorem State.skipIf_diagnostics (s : State) (c : Bool) : (s.skipIf c).diagnostics = s.diagnostics := rfl

/-! `setDt` -/

@[simp] theorem State.setDt_mem (s : State) (b : Byte) : (s.setDt b).mem = s.mem := rfl
@[simp] theorem State.setDt_v (s : State) (b : Byte) : (s.setDt b).v = s.v := rfl
@[simp] theorem State.setDt_i (s : State) (b : Byte) : (s.setDt b).i = s.i := rfl
@[simp] theorem State.setDt_pc (s : State) (b : Byte) : (s.setDt b).pc = s.pc := rfl
@[simp] theorem State.setDt_stack (s : State) (b : Byte) : (s.setDt b).stack = s.stack := rfl
@[simp] theorem State.setDt_sp (s : State) (b : Byte) : (s.setDt b).sp = s.sp := rfl
@[simp] theorem State.setDt_dt (s : State) (b : Byte) : (s.setDt b).dt = b := rfl
@[simp] theorem State.setDt_st (s : State) (b : Byte) : (s.setDt b).st = s.st := rfl
@[simp] theorem State.setDt_fb (s : State) (b : Byte) : (s.setDt b).fb = s.fb := rfl
@[simp] theorem State.setDt_keys (s : State) (b : Byte) : (s.setDt b).keys = s.keys := rfl
@[simp] theorem State.setDt_wait (s : State) (b : Byte) : (s.setDt b).wait = s.wait := rfl
@[simp] theorem State.setDt_halt (s : State) (b : Byte) : (s.setDt b).halt = s.halt := rfl
@[simp] theorem State.setDt_cfg (s : State) (b : Byte) : (s.setDt b).cfg = s.cfg := rfl
@[simp] theorem State.setDt_rnd (s : State) (b : Byte) : (s.setDt b).rnd = s.rnd := rfl
@[simp] theorem State.setDt_inputs (s : State) (b : Byte) : (s.setDt b).inputs = s.inputs := rfl
@[simp] theorem State.setDt_drawn (s : State) (b : Byte) : (s.setDt b).drawn = s.drawn := rfl
@[simp] theorem State.setDt_diagnostics (s : State) (b : Byte) : (s.setDt b).diagnostics = s.diagnostics := rfl

/-! `setSt` -/

@[simp] theorem State.setSt_mem (s : State) (b : Byte) : (s.setSt b).mem = s.mem := rfl
@[simp] theorem State.setSt_v (s : State) (b : Byte) : (s.setSt b).v = s.v := rfl
@[simp] theorem State.setSt_i (s : State) (b : Byte) : (s.setSt b).i = s.i := rfl
@[simp] theorem State.setSt_pc (s : State) (b : Byte) : (s.setSt b).pc = s.pc := rfl
@[simp] theorem State.setSt_stack (s : State) (b : Byte) : (s.setSt b).stack = s.stack := rfl
@[simp] theorem State.setSt_sp (s : State) (b : Byte) : (s.setSt b).sp = s.sp := rfl
@[simp] theorem State.setSt_dt (s : State) (b : Byte) : (s.setSt b).dt = s.dt := rfl
@[simp] theorem State.setSt_st (s : State) (b : Byte) : (s.setSt b).st = b := rfl
@[simp] theorem State.setSt_fb (s : State) (b : Byte) : (s.setSt b).fb = s.fb := rfl
@[simp] theorem State.setSt_keys (s : State) (b : Byte) : (s.setSt b).keys = s.keys := rfl
@[simp] theorem State.setSt_wait (s : State) (b : Byte) : (s.setSt b).wait = s.wait := rfl
@[simp] theorem State.setSt_halt (s : State) (b : Byte) : (s.setSt b).halt = s.halt := rfl
@[simp] theorem State.setSt_cfg (s : State) (b : Byte) : (s.setSt b).cfg = s.cfg := rfl
@[simp] theorem State.setSt_rnd (s : State) (b : Byte) : (s.setSt b).rnd = s.rnd := rfl
@[simp] theorem State.setSt_inputs (s : State) (b : Byte) : (s.setSt b).inputs = s.inputs := rfl
@[simp] theorem State.setSt_drawn (s : State) (b : Byte) : (s.setSt b).drawn = s.drawn := rfl
@[simp] theorem State.setSt_diagnostics (s : State) (b : Byte) : (s.setSt b).diagnostics = s.diagnostics := rfl

/-! `setFb` -/

@[simp] theorem State.setFb_mem (s : State) (f : Framebuffer) : (s.setFb f).mem = s.mem := rfl
@[simp] theorem State.setFb_v (s : State) (f : Framebuffer) : (s.setFb f).v = s.v := rfl
@[simp] theorem State.setFb_i (s : State) (f : Framebuffer) : (s.setFb f).i = s.i := rfl
@[simp] theorem State.setFb_pc (s : State) (f : Framebuffer) : (s.setFb f).pc = s.pc := rfl
@[simp] theorem State.setFb_stack (s : State) (f : Framebuffer) : (s.setFb f).stack = s.stack := rfl
@[simp] theorem State.setFb_sp (s : State) (f : Framebuffer) : (s.setFb f).sp = s.sp := rfl
@[simp] theorem State.setFb_dt (s : State) (f : Framebuffer) : (s.setFb f).dt = s.dt := rfl
@[simp] theorem State.setFb_st (s : State) (f : Framebuffer) : (s.setFb f).st = s.st := rfl
@[simp] theorem State.setFb_fb (s : State) (f : Framebuffer) : (s.setFb f).fb = f := rfl
@[simp] theorem State.setFb_keys (s : State) (f : Framebuffer) : (s.setFb f).keys = s.keys := rfl
@[simp] theorem State.setFb_wait (s : State) (f : Framebuffer) : (s.setFb f).wait = s.wait := rfl
@[simp] theorem State.setFb_halt (s : State) (f : Framebuffer) : (s.setFb f).halt = s.halt := rfl
@[simp] theorem State.setFb_cfg (s : State) (f : Framebuffer) : (s.setFb f).cfg = s.cfg := rfl
@[simp] theorem State.setFb_rnd (s : State) (f : Framebuffer) : (s.setFb f).rnd = s.rnd := rfl
@[simp] theorem State.setFb_inputs (s : State) (f : Framebuffer) : (s.setFb f).inputs = s.inputs := rfl
@[simp] theorem State.setFb_drawn (s : State) (f : Framebuffer) : (s.setFb f).drawn = s.drawn := rfl
@[simp] theorem State.setFb_diagnostics (s : State) (f : Framebuffer) : (s.setFb f).diagnostics = s.diagnostics := rfl

/-! `setWait` -/

@[simp] theorem State.setWait_mem (s : State) (w : Option RegIdx) : (s.setWait w).mem = s.mem := rfl
@[simp] theorem State.setWait_v (s : State) (w : Option RegIdx) : (s.setWait w).v = s.v := rfl
@[simp] theorem State.setWait_i (s : State) (w : Option RegIdx) : (s.setWait w).i = s.i := rfl
@[simp] theorem State.setWait_pc (s : State) (w : Option RegIdx) : (s.setWait w).pc = s.pc := rfl
@[simp] theorem State.setWait_stack (s : State) (w : Option RegIdx) : (s.setWait w).stack = s.stack := rfl
@[simp] theorem State.setWait_sp (s : State) (w : Option RegIdx) : (s.setWait w).sp = s.sp := rfl
@[simp] theorem State.setWait_dt (s : State) (w : Option RegIdx) : (s.setWait w).dt = s.dt := rfl
@[simp] theorem State.setWait_st (s : State) (w : Option RegIdx) : (s.setWait w).st = s.st := rfl
@[simp] theorem State.setWait_fb (s : State) (w : Option RegIdx) : (s.setWait w).fb = s.fb := rfl
@[simp] theorem State.setWait_keys (s : State) (w : Option RegIdx) : (s.setWait w).keys = s.keys := rfl
@[simp] theorem State.setWait_wait (s : State) (w : Option RegIdx) : (s.setWait w).wait = w := rfl
@[simp] theorem State.setWait_halt (s : State) (w : Option RegIdx) : (s.setWait w).halt = s.halt := rfl
@[simp] theorem State.setWait_cfg (s : State) (w : Option RegIdx) : (s.setWait w).cfg = s.cfg := rfl
@[simp] theorem State.setWait_rnd (s : State) (w : Option RegIdx) : (s.setWait w).rnd = s.rnd := rfl
@[simp] theorem State.setWait_inputs (s : State) (w : Option RegIdx) : (s.setWait w).inputs = s.inputs := rfl
@[simp] theorem State.setWait_drawn (s : State) (w : Option RegIdx) : (s.setWait w).drawn = s.drawn := rfl
@[simp] theorem State.setWait_diagnostics (s : State) (w : Option RegIdx) : (s.setWait w).diagnostics = s.diagnostics := rfl

/-! `latch` -/

@[simp] theorem State.latch_mem (s : State) (k : Word) (b : Byte) : (s.latch k b).mem = s.mem := rfl
@[simp] theorem State.latch_v (s : State) (k : Word) (b : Byte) : (s.latch k b).v = s.v := rfl
@[simp] theorem State.latch_i (s : State) (k : Word) (b : Byte) : (s.latch k b).i = s.i := rfl
@[simp] theorem State.latch_pc (s : State) (k : Word) (b : Byte) : (s.latch k b).pc = s.pc := rfl
@[simp] theorem State.latch_stack (s : State) (k : Word) (b : Byte) : (s.latch k b).stack = s.stack := rfl
@[simp] theorem State.latch_sp (s : State) (k : Word) (b : Byte) : (s.latch k b).sp = s.sp := rfl
@[simp] theorem State.latch_dt (s : State) (k : Word) (b : Byte) : (s.latch k b).dt = s.dt := rfl
@[simp] theorem State.latch_st (s : State) (k : Word) (b : Byte) : (s.latch k b).st = s.st := rfl
@[simp] theorem State.latch_fb (s : State) (k : Word) (b : Byte) : (s.latch k b).fb = s.fb := rfl
@[simp] theorem State.latch_keys (s : State) (k : Word) (b : Byte) : (s.latch k b).keys = k := rfl
@[simp] theorem State.latch_wait (s : State) (k : Word) (b : Byte) : (s.latch k b).wait = s.wait := rfl
@[simp] theorem State.latch_halt (s : State) (k : Word) (b : Byte) : (s.latch k b).halt = s.halt := rfl
@[simp] theorem State.latch_cfg (s : State) (k : Word) (b : Byte) : (s.latch k b).cfg = s.cfg := rfl
@[simp] theorem State.latch_rnd (s : State) (k : Word) (b : Byte) : (s.latch k b).rnd = b := rfl
@[simp] theorem State.latch_inputs (s : State) (k : Word) (b : Byte) : (s.latch k b).inputs = s.inputs := rfl
@[simp] theorem State.latch_drawn (s : State) (k : Word) (b : Byte) : (s.latch k b).drawn = s.drawn := rfl
@[simp] theorem State.latch_diagnostics (s : State) (k : Word) (b : Byte) : (s.latch k b).diagnostics = s.diagnostics := rfl

/-! `emit` -/

@[simp] theorem State.emit_mem (s : State) (d : Diagnostic) : (s.emit d).mem = s.mem := rfl
@[simp] theorem State.emit_v (s : State) (d : Diagnostic) : (s.emit d).v = s.v := rfl
@[simp] theorem State.emit_i (s : State) (d : Diagnostic) : (s.emit d).i = s.i := rfl
@[simp] theorem State.emit_pc (s : State) (d : Diagnostic) : (s.emit d).pc = s.pc := rfl
@[simp] theorem State.emit_stack (s : State) (d : Diagnostic) : (s.emit d).stack = s.stack := rfl
@[simp] theorem State.emit_sp (s : State) (d : Diagnostic) : (s.emit d).sp = s.sp := rfl
@[simp] theorem State.emit_dt (s : State) (d : Diagnostic) : (s.emit d).dt = s.dt := rfl
@[simp] theorem State.emit_st (s : State) (d : Diagnostic) : (s.emit d).st = s.st := rfl
@[simp] theorem State.emit_fb (s : State) (d : Diagnostic) : (s.emit d).fb = s.fb := rfl
@[simp] theorem State.emit_keys (s : State) (d : Diagnostic) : (s.emit d).keys = s.keys := rfl
@[simp] theorem State.emit_wait (s : State) (d : Diagnostic) : (s.emit d).wait = s.wait := rfl
@[simp] theorem State.emit_halt (s : State) (d : Diagnostic) : (s.emit d).halt = s.halt := rfl
@[simp] theorem State.emit_cfg (s : State) (d : Diagnostic) : (s.emit d).cfg = s.cfg := rfl
@[simp] theorem State.emit_rnd (s : State) (d : Diagnostic) : (s.emit d).rnd = s.rnd := rfl
@[simp] theorem State.emit_inputs (s : State) (d : Diagnostic) : (s.emit d).inputs = s.inputs := rfl
@[simp] theorem State.emit_drawn (s : State) (d : Diagnostic) : (s.emit d).drawn = s.drawn := rfl
@[simp] theorem State.emit_diagnostics (s : State) (d : Diagnostic) : (s.emit d).diagnostics = s.diagnostics ++ [d] := rfl

/-! `setStack` -/

@[simp] theorem State.setStack_mem (s : State) (a : Vector Word 16) (n : Fin 17) : (s.setStack a n).mem = s.mem := rfl
@[simp] theorem State.setStack_v (s : State) (a : Vector Word 16) (n : Fin 17) : (s.setStack a n).v = s.v := rfl
@[simp] theorem State.setStack_i (s : State) (a : Vector Word 16) (n : Fin 17) : (s.setStack a n).i = s.i := rfl
@[simp] theorem State.setStack_pc (s : State) (a : Vector Word 16) (n : Fin 17) : (s.setStack a n).pc = s.pc := rfl
@[simp] theorem State.setStack_stack (s : State) (a : Vector Word 16) (n : Fin 17) : (s.setStack a n).stack = a := rfl
@[simp] theorem State.setStack_sp (s : State) (a : Vector Word 16) (n : Fin 17) : (s.setStack a n).sp = n := rfl
@[simp] theorem State.setStack_dt (s : State) (a : Vector Word 16) (n : Fin 17) : (s.setStack a n).dt = s.dt := rfl
@[simp] theorem State.setStack_st (s : State) (a : Vector Word 16) (n : Fin 17) : (s.setStack a n).st = s.st := rfl
@[simp] theorem State.setStack_fb (s : State) (a : Vector Word 16) (n : Fin 17) : (s.setStack a n).fb = s.fb := rfl
@[simp] theorem State.setStack_keys (s : State) (a : Vector Word 16) (n : Fin 17) : (s.setStack a n).keys = s.keys := rfl
@[simp] theorem State.setStack_wait (s : State) (a : Vector Word 16) (n : Fin 17) : (s.setStack a n).wait = s.wait := rfl
@[simp] theorem State.setStack_halt (s : State) (a : Vector Word 16) (n : Fin 17) : (s.setStack a n).halt = s.halt := rfl
@[simp] theorem State.setStack_cfg (s : State) (a : Vector Word 16) (n : Fin 17) : (s.setStack a n).cfg = s.cfg := rfl
@[simp] theorem State.setStack_rnd (s : State) (a : Vector Word 16) (n : Fin 17) : (s.setStack a n).rnd = s.rnd := rfl
@[simp] theorem State.setStack_inputs (s : State) (a : Vector Word 16) (n : Fin 17) : (s.setStack a n).inputs = s.inputs := rfl
@[simp] theorem State.setStack_drawn (s : State) (a : Vector Word 16) (n : Fin 17) : (s.setStack a n).drawn = s.drawn := rfl
@[simp] theorem State.setStack_diagnostics (s : State) (a : Vector Word 16) (n : Fin 17) : (s.setStack a n).diagnostics = s.diagnostics := rfl

/-! `raise` -/

@[simp] theorem State.raise_mem (s : State) (f : FatalCondition) : (s.raise f).mem = s.mem := rfl
@[simp] theorem State.raise_v (s : State) (f : FatalCondition) : (s.raise f).v = s.v := rfl
@[simp] theorem State.raise_i (s : State) (f : FatalCondition) : (s.raise f).i = s.i := rfl
@[simp] theorem State.raise_pc (s : State) (f : FatalCondition) : (s.raise f).pc = s.pc := rfl
@[simp] theorem State.raise_stack (s : State) (f : FatalCondition) : (s.raise f).stack = s.stack := rfl
@[simp] theorem State.raise_sp (s : State) (f : FatalCondition) : (s.raise f).sp = s.sp := rfl
@[simp] theorem State.raise_dt (s : State) (f : FatalCondition) : (s.raise f).dt = s.dt := rfl
@[simp] theorem State.raise_st (s : State) (f : FatalCondition) : (s.raise f).st = s.st := rfl
@[simp] theorem State.raise_fb (s : State) (f : FatalCondition) : (s.raise f).fb = s.fb := rfl
@[simp] theorem State.raise_keys (s : State) (f : FatalCondition) : (s.raise f).keys = s.keys := rfl
@[simp] theorem State.raise_wait (s : State) (f : FatalCondition) : (s.raise f).wait = s.wait := rfl
@[simp] theorem State.raise_halt (s : State) (f : FatalCondition) : (s.raise f).halt = some f := rfl
@[simp] theorem State.raise_cfg (s : State) (f : FatalCondition) : (s.raise f).cfg = s.cfg := rfl
@[simp] theorem State.raise_rnd (s : State) (f : FatalCondition) : (s.raise f).rnd = s.rnd := rfl
@[simp] theorem State.raise_inputs (s : State) (f : FatalCondition) : (s.raise f).inputs = s.inputs := rfl
@[simp] theorem State.raise_drawn (s : State) (f : FatalCondition) : (s.raise f).drawn = s.drawn := rfl
@[simp] theorem State.raise_diagnostics (s : State) (f : FatalCondition) : (s.raise f).diagnostics = s.diagnostics := rfl

/-! `store` -/

@[simp] theorem State.store_mem (s : State) (cs : List Nat) (bs : List Byte) : (s.store cs bs).mem = s.mem.writeAll (cs.zip bs) := rfl
@[simp] theorem State.store_v (s : State) (cs : List Nat) (bs : List Byte) : (s.store cs bs).v = s.v := rfl
@[simp] theorem State.store_i (s : State) (cs : List Nat) (bs : List Byte) : (s.store cs bs).i = s.i := rfl
@[simp] theorem State.store_pc (s : State) (cs : List Nat) (bs : List Byte) : (s.store cs bs).pc = s.pc := rfl
@[simp] theorem State.store_stack (s : State) (cs : List Nat) (bs : List Byte) : (s.store cs bs).stack = s.stack := rfl
@[simp] theorem State.store_sp (s : State) (cs : List Nat) (bs : List Byte) : (s.store cs bs).sp = s.sp := rfl
@[simp] theorem State.store_dt (s : State) (cs : List Nat) (bs : List Byte) : (s.store cs bs).dt = s.dt := rfl
@[simp] theorem State.store_st (s : State) (cs : List Nat) (bs : List Byte) : (s.store cs bs).st = s.st := rfl
@[simp] theorem State.store_fb (s : State) (cs : List Nat) (bs : List Byte) : (s.store cs bs).fb = s.fb := rfl
@[simp] theorem State.store_keys (s : State) (cs : List Nat) (bs : List Byte) : (s.store cs bs).keys = s.keys := rfl
@[simp] theorem State.store_wait (s : State) (cs : List Nat) (bs : List Byte) : (s.store cs bs).wait = s.wait := rfl
@[simp] theorem State.store_halt (s : State) (cs : List Nat) (bs : List Byte) : (s.store cs bs).halt = s.halt := rfl
@[simp] theorem State.store_cfg (s : State) (cs : List Nat) (bs : List Byte) : (s.store cs bs).cfg = s.cfg := rfl
@[simp] theorem State.store_rnd (s : State) (cs : List Nat) (bs : List Byte) : (s.store cs bs).rnd = s.rnd := rfl
@[simp] theorem State.store_inputs (s : State) (cs : List Nat) (bs : List Byte) : (s.store cs bs).inputs = s.inputs := rfl
@[simp] theorem State.store_drawn (s : State) (cs : List Nat) (bs : List Byte) : (s.store cs bs).drawn = s.drawn := rfl
@[simp] theorem State.store_diagnostics (s : State) (cs : List Nat) (bs : List Byte) : (s.store cs bs).diagnostics = s.diagnostics := rfl

/-! `setFlag` -/

@[simp] theorem State.setFlag_mem (s : State) (c : Bool) : (s.setFlag c).mem = s.mem := rfl
@[simp] theorem State.setFlag_v (s : State) (c : Bool) : (s.setFlag c).v = s.v.set 15 (flagByte c) := rfl
@[simp] theorem State.setFlag_i (s : State) (c : Bool) : (s.setFlag c).i = s.i := rfl
@[simp] theorem State.setFlag_pc (s : State) (c : Bool) : (s.setFlag c).pc = s.pc := rfl
@[simp] theorem State.setFlag_stack (s : State) (c : Bool) : (s.setFlag c).stack = s.stack := rfl
@[simp] theorem State.setFlag_sp (s : State) (c : Bool) : (s.setFlag c).sp = s.sp := rfl
@[simp] theorem State.setFlag_dt (s : State) (c : Bool) : (s.setFlag c).dt = s.dt := rfl
@[simp] theorem State.setFlag_st (s : State) (c : Bool) : (s.setFlag c).st = s.st := rfl
@[simp] theorem State.setFlag_fb (s : State) (c : Bool) : (s.setFlag c).fb = s.fb := rfl
@[simp] theorem State.setFlag_keys (s : State) (c : Bool) : (s.setFlag c).keys = s.keys := rfl
@[simp] theorem State.setFlag_wait (s : State) (c : Bool) : (s.setFlag c).wait = s.wait := rfl
@[simp] theorem State.setFlag_halt (s : State) (c : Bool) : (s.setFlag c).halt = s.halt := rfl
@[simp] theorem State.setFlag_cfg (s : State) (c : Bool) : (s.setFlag c).cfg = s.cfg := rfl
@[simp] theorem State.setFlag_rnd (s : State) (c : Bool) : (s.setFlag c).rnd = s.rnd := rfl
@[simp] theorem State.setFlag_inputs (s : State) (c : Bool) : (s.setFlag c).inputs = s.inputs := rfl
@[simp] theorem State.setFlag_drawn (s : State) (c : Bool) : (s.setFlag c).drawn = s.drawn := rfl
@[simp] theorem State.setFlag_diagnostics (s : State) (c : Bool) : (s.setFlag c).diagnostics = s.diagnostics := rfl

/-! Registers read after a register write -/

theorem State.reg_setReg (s : State) (x r : RegIdx) (b : Byte) : (s.setReg x b).reg r = if r = x then b else s.reg r := by
  simp only [State.reg, State.setReg_v, Vector.getElem_set, BitVec.toNat_inj, eq_comm]

@[simp] theorem State.reg_setReg_self (s : State) (x : RegIdx) (b : Byte) : (s.setReg x b).reg x = b := by
  simp [State.reg_setReg]

theorem State.reg_setReg_ne (s : State) {x r : RegIdx} (b : Byte) (h : r ≠ x) : (s.setReg x b).reg r = s.reg r := by
  simp [State.reg_setReg, h]

/-- A register depends on `v` alone. -/
theorem State.reg_congr {s t : State} (h : t.v = s.v) (r : RegIdx) : t.reg r = s.reg r := by
  simp [State.reg, h]

/-- A pixel depends on `fb` alone. -/
theorem State.pixel_congr {s t : State} (h : t.fb = s.fb) (r : Fin 32) (c : Fin 64) : t.pixel r c = s.pixel r c := by
  simp [State.pixel, h]

@[simp] theorem State.reg_setI (s : State) (w : Word) (r : RegIdx) : (s.setI w).reg r = s.reg r := rfl
@[simp] theorem State.reg_setPc (s : State) (w : Word) (r : RegIdx) : (s.setPc w).reg r = s.reg r := rfl
@[simp] theorem State.reg_advance (s : State) (r : RegIdx) : (s.advance).reg r = s.reg r := rfl
@[simp] theorem State.reg_skipIf (s : State) (c : Bool) (r : RegIdx) : (s.skipIf c).reg r = s.reg r := rfl
@[simp] theorem State.reg_setDt (s : State) (b : Byte) (r : RegIdx) : (s.setDt b).reg r = s.reg r := rfl
@[simp] theorem State.reg_setSt (s : State) (b : Byte) (r : RegIdx) : (s.setSt b).reg r = s.reg r := rfl
@[simp] theorem State.reg_setFb (s : State) (f : Framebuffer) (r : RegIdx) : (s.setFb f).reg r = s.reg r := rfl
@[simp] theorem State.reg_setWait (s : State) (w : Option RegIdx) (r : RegIdx) : (s.setWait w).reg r = s.reg r := rfl
@[simp] theorem State.reg_latch (s : State) (k : Word) (b : Byte) (r : RegIdx) : (s.latch k b).reg r = s.reg r := rfl
@[simp] theorem State.reg_emit (s : State) (d : Diagnostic) (r : RegIdx) : (s.emit d).reg r = s.reg r := rfl
@[simp] theorem State.reg_setStack (s : State) (a : Vector Word 16) (n : Fin 17) (r : RegIdx) : (s.setStack a n).reg r = s.reg r := rfl
@[simp] theorem State.reg_raise (s : State) (f : FatalCondition) (r : RegIdx) : (s.raise f).reg r = s.reg r := rfl
@[simp] theorem State.reg_store (s : State) (cs : List Nat) (bs : List Byte) (r : RegIdx) : (s.store cs bs).reg r = s.reg r := rfl

@[simp] theorem State.pixel_setI (s : State) (w : Word) (r : Fin 32) (c : Fin 64) :
    (s.setI w).pixel r c = s.pixel r c := rfl
@[simp] theorem State.pixel_setPc (s : State) (w : Word) (r : Fin 32) (c : Fin 64) :
    (s.setPc w).pixel r c = s.pixel r c := rfl
@[simp] theorem State.pixel_advance (s : State) (r : Fin 32) (c : Fin 64) :
    (s.advance).pixel r c = s.pixel r c := rfl
@[simp] theorem State.pixel_skipIf (s : State) (c₀ : Bool) (r : Fin 32) (c : Fin 64) :
    (s.skipIf c₀).pixel r c = s.pixel r c := rfl
@[simp] theorem State.pixel_setDt (s : State) (b : Byte) (r : Fin 32) (c : Fin 64) :
    (s.setDt b).pixel r c = s.pixel r c := rfl
@[simp] theorem State.pixel_setSt (s : State) (b : Byte) (r : Fin 32) (c : Fin 64) :
    (s.setSt b).pixel r c = s.pixel r c := rfl
@[simp] theorem State.pixel_setWait (s : State) (w : Option RegIdx) (r : Fin 32) (c : Fin 64) :
    (s.setWait w).pixel r c = s.pixel r c := rfl
@[simp] theorem State.pixel_latch (s : State) (k : Word) (b : Byte) (r : Fin 32) (c : Fin 64) :
    (s.latch k b).pixel r c = s.pixel r c := rfl
@[simp] theorem State.pixel_emit (s : State) (d : Diagnostic) (r : Fin 32) (c : Fin 64) :
    (s.emit d).pixel r c = s.pixel r c := rfl
@[simp] theorem State.pixel_setStack (s : State) (a : Vector Word 16) (n : Fin 17) (r : Fin 32) (c : Fin 64) :
    (s.setStack a n).pixel r c = s.pixel r c := rfl
@[simp] theorem State.pixel_raise (s : State) (f : FatalCondition) (r : Fin 32) (c : Fin 64) :
    (s.raise f).pixel r c = s.pixel r c := rfl
@[simp] theorem State.pixel_store (s : State) (cs : List Nat) (bs : List Byte) (r : Fin 32) (c : Fin 64) :
    (s.store cs bs).pixel r c = s.pixel r c := rfl
@[simp] theorem State.pixel_setReg (s : State) (x : RegIdx) (b : Byte) (r : Fin 32) (c : Fin 64) :
    (s.setReg x b).pixel r c = s.pixel r c := rfl
@[simp] theorem State.pixel_setFlag (s : State) (c' : Bool) (r : Fin 32) (c : Fin 64) :
    (s.setFlag c').pixel r c = s.pixel r c := rfl

theorem State.reg_setFlag (s : State) (c : Bool) (r : RegIdx) :
    (s.setFlag c).reg r = if r = vf then flagByte c else s.reg r := State.reg_setReg s vf r _

/-- The flag is what remains when the result register is VF (R172). -/
theorem State.reg_setResultFlag (s : State) (x r : RegIdx) (b : Byte) (c : Bool) :
    (s.setResultFlag x b c).reg r = if r = vf then flagByte c else if r = x then b else s.reg r := by
  simp only [State.setResultFlag, State.reg_setFlag, State.reg_setReg]

/-! Frames compose -/

theorem agrees_refl (s : State) (p : Part) : Agrees s s p := by
  cases p with
  | stack => exact ⟨rfl, fun _ => rfl⟩
  | mem => exact fun _ => rfl
  | regs => exact fun _ => rfl
  | screen => exact fun _ _ => rfl
  | _ => rfl

theorem agrees_trans {s t u : State} {p : Part} (h : Agrees s t p) (h' : Agrees t u p) : Agrees s u p := by
  cases p with
  | stack => exact ⟨h'.1.trans h.1, fun k => (h'.2 k).trans (h.2 k)⟩
  | mem => exact fun a => (h' a).trans (h a)
  | regs => exact fun r => (h' r).trans (h r)
  | screen => exact fun r c => (h' r c).trans (h r c)
  | _ => exact Eq.trans h' h

theorem onlyChanges_trans {s t u : State} {parts : List Part} (h : OnlyChanges s t parts) (h' : OnlyChanges t u parts) :
    OnlyChanges s u parts :=
  ⟨⟨h'.1.1.trans h.1.1, h'.1.2.1.trans h.1.2.1, h'.1.2.2.1.trans h.1.2.2.1, h'.1.2.2.2.trans h.1.2.2.2⟩,
    fun p hp => agrees_trans (h.2 p hp) (h'.2 p hp)⟩

end Sys2Proof.Machine
end

