-- ==== Sys2Proof/Laws/Memory.lean ====
section
/-! SUPPORT. Memory: a read after a write, and that every memory operation keeps the canonical form. -/

namespace Sys2Proof.Machine

theorem Memory.wfFrom_cons {lo : Nat} {c : Host.Cell} {m : Memory} :
    Memory.wfFrom lo (c :: m) = true ↔
      lo ≤ c.1 ∧ c.1 < memSize ∧ c.2 ≠ Memory.unlisted c.1 ∧ Memory.wfFrom (c.1 + 1) m = true := by
  simp [Memory.wfFrom, and_assoc]

theorem Memory.wfFrom_mono {lo lo' : Nat} {m : Memory} (h : lo' ≤ lo) (hm : Memory.wfFrom lo m = true) :
    Memory.wfFrom lo' m = true := by
  cases m with
  | nil => rfl
  | cons c m =>
    rw [Memory.wfFrom_cons] at hm ⊢
    exact ⟨h.trans hm.1, hm.2⟩

/-- Below the listed addresses every cell reads as unlisted. -/
theorem Memory.read_below {lo a : Nat} {m : Memory} (hm : Memory.wfFrom lo m = true) (h : a < lo) :
    m.read a = Memory.unlisted a := by
  induction m generalizing lo with
  | nil => rfl
  | cons c m ih =>
    rw [Memory.wfFrom_cons] at hm
    have hne : c.1 ≠ a := by omega
    simp only [Memory.read, hne, if_false]
    exact ih hm.2.2.2 (by omega)

theorem Memory.read_put {a : Nat} {b : Byte} {m : Memory} (hm : Memory.wfFrom (a + 1) m = true) (x : Nat) :
    (Memory.put a b m).read x = if x = a then b else m.read x := by
  unfold Memory.put
  split
  · next h =>
    split
    · next hx => rw [hx, Memory.read_below hm (by omega), h]
    · rfl
  · simp only [Memory.read, eq_comm]

theorem Memory.put_wfFrom {lo a : Nat} {b : Byte} {m : Memory} (hlo : lo ≤ a) (ha : a < memSize)
    (hm : Memory.wfFrom (a + 1) m = true) : Memory.wfFrom lo (Memory.put a b m) = true := by
  unfold Memory.put
  split
  · exact Memory.wfFrom_mono (by omega) hm
  · next h => exact Memory.wfFrom_cons.2 ⟨hlo, ha, h, hm⟩

theorem Memory.write_wfFrom {lo a : Nat} (b : Byte) {m : Memory} (hlo : lo ≤ a) (ha : a < memSize)
    (hm : Memory.wfFrom lo m = true) : Memory.wfFrom lo (m.write a b) = true := by
  induction m generalizing lo with
  | nil => exact Memory.put_wfFrom hlo ha rfl
  | cons c m ih =>
    have hc := Memory.wfFrom_cons.1 hm
    unfold Memory.write
    split
    · exact Memory.put_wfFrom hlo ha (Memory.wfFrom_cons.2 ⟨by omega, hc.2⟩)
    · split
      · next h => exact Memory.put_wfFrom hlo ha (h ▸ hc.2.2.2)
      · exact Memory.wfFrom_cons.2 ⟨hc.1, hc.2.1, hc.2.2.1, ih (by omega) hc.2.2.2⟩

/-- A write keeps the canonical form. -/
theorem Memory.write_wf {a : Nat} (b : Byte) {m : Memory} (ha : a < memSize) (hm : m.wf = true) :
    (m.write a b).wf = true := Memory.write_wfFrom b (Nat.zero_le a) ha hm

theorem Memory.read_write_from {lo a : Nat} (b : Byte) {m : Memory} (hm : Memory.wfFrom lo m = true) (x : Nat) :
    (m.write a b).read x = if x = a then b else m.read x := by
  induction m generalizing lo with
  | nil => exact Memory.read_put rfl x
  | cons c m ih =>
    have hc := Memory.wfFrom_cons.1 hm
    unfold Memory.write
    split
    · exact Memory.read_put (Memory.wfFrom_cons.2 ⟨by omega, hc.2⟩) x
    · split
      · next h =>
        rw [Memory.read_put (h ▸ hc.2.2.2)]
        split
        · rfl
        · next hx => simp [Memory.read, ← h, Ne.symm hx]
      · next hlt hne =>
        simp only [Memory.read, ih hc.2.2.2]
        split
        · next hx => rw [if_neg (by omega)]
        · rfl

/-- A read after a write gives the value written, and a write leaves every other cell alone (R59). -/
theorem Memory.read_write {m : Memory} (hm : m.wf = true) (a x : Nat) (b : Byte) :
    (m.write a b).read x = if x = a then b else m.read x := Memory.read_write_from b hm x

theorem Memory.writeAll_wf {m : Memory} (cs : List Host.Cell) (hm : m.wf = true) (hcs : ∀ c ∈ cs, c.1 < memSize) :
    (m.writeAll cs).wf = true := by
  induction cs generalizing m with
  | nil => exact hm
  | cons c cs ih =>
    exact ih (Memory.write_wf _ (hcs c (by simp)) hm) fun c' h => hcs c' (by simp [h])

/-- A cell no pair names is unchanged. -/
theorem Memory.read_writeAll_other {m : Memory} (cs : List Host.Cell) (hm : m.wf = true)
    (hcs : ∀ c ∈ cs, c.1 < memSize) {x : Nat} (hx : ∀ c ∈ cs, c.1 ≠ x) : (m.writeAll cs).read x = m.read x := by
  induction cs generalizing m with
  | nil => rfl
  | cons c cs ih =>
    rw [Memory.writeAll, ih (Memory.write_wf _ (hcs c (by simp)) hm) (fun c' h => hcs c' (by simp [h]))
      (fun c' h => hx c' (by simp [h])), Memory.read_write hm, if_neg (Ne.symm (hx c (by simp)))]

/-- Where no cell is named twice, each named cell holds its byte afterwards. -/
theorem Memory.read_writeAll_mem {m : Memory} (cs : List Host.Cell) (hm : m.wf = true)
    (hcs : ∀ c ∈ cs, c.1 < memSize) (hd : (cs.map Prod.fst).Nodup) {c : Host.Cell} (hc : c ∈ cs) :
    (m.writeAll cs).read c.1 = c.2 := by
  induction cs generalizing m with
  | nil => simp at hc
  | cons c' cs ih =>
    have hw := Memory.write_wf c'.2 (hcs c' (by simp)) hm
    have hcs' : ∀ d ∈ cs, d.1 < memSize := fun d h => hcs d (by simp [h])
    rw [List.map_cons, List.nodup_cons] at hd
    rw [Memory.writeAll]
    rcases List.mem_cons.1 hc with rfl | h
    · rw [Memory.read_writeAll_other cs hw hcs' fun d hd' he => hd.1 (List.mem_map.2 ⟨d, hd', he⟩),
        Memory.read_write hm, if_pos rfl]
    · exact ih hw hcs' hd.2 h

theorem Memory.writeFrom_wf {m : Memory} {a : Nat} (bs : List Byte) (hm : m.wf = true) (h : a + bs.length ≤ memSize) :
    (Memory.writeFrom m a bs).wf = true := by
  induction bs generalizing m a with
  | nil => exact hm
  | cons b bs ih =>
    rw [List.length_cons] at h
    exact ih (Memory.write_wf b (by omega) hm) (by omega)

/-- Consecutive bytes from `a` on: byte `x - a` in cell `x`, every other cell unchanged. -/
theorem Memory.read_writeFrom {m : Memory} {a : Nat} (bs : List Byte) (hm : m.wf = true) (h : a + bs.length ≤ memSize)
    (x : Nat) : (Memory.writeFrom m a bs).read x = if a ≤ x ∧ x < a + bs.length then bs.getD (x - a) 0 else m.read x := by
  induction bs generalizing m a with
  | nil => simp [Memory.writeFrom]
  | cons b bs ih =>
    rw [List.length_cons] at h
    rw [Memory.writeFrom, ih (Memory.write_wf b (by omega) hm) (by omega), Memory.read_write hm, List.length_cons]
    by_cases hx : x = a
    · subst hx; simp
    · by_cases hr : a + 1 ≤ x ∧ x < a + 1 + bs.length
      · obtain ⟨k, rfl⟩ : ∃ k, x = a + 1 + k := ⟨x - (a + 1), by omega⟩
        rw [if_pos hr, if_pos (by omega), show a + 1 + k - a = k + 1 by omega, show a + 1 + k - (a + 1) = k by omega]
        simp
      · rw [if_neg hr, if_neg hx, if_neg (by omega)]

/-- The canonical form is canonical: memories that read the same are equal data. -/
theorem Memory.eq_of_read_from {lo : Nat} {m m' : Memory} (hm : Memory.wfFrom lo m = true)
    (hm' : Memory.wfFrom lo m' = true) (h : ∀ a, m.read a = m'.read a) : m = m' := by
  induction m generalizing lo m' with
  | nil =>
    cases m' with
    | nil => rfl
    | cons c' m' =>
      have hc' := Memory.wfFrom_cons.1 hm'
      exact absurd (by simpa [Memory.read] using (h c'.1).symm) hc'.2.2.1
  | cons c m ih =>
    have hc := Memory.wfFrom_cons.1 hm
    cases m' with
    | nil => exact absurd (by simpa [Memory.read] using h c.1) hc.2.2.1
    | cons c' m' =>
      have hc' := Memory.wfFrom_cons.1 hm'
      have hk : c.1 = c'.1 := by
        rcases lt_trichotomy c.1 c'.1 with hlt | he | hgt
        · refine absurd ?_ hc.2.2.1
          have := h c.1
          rw [Memory.read_below (Memory.wfFrom_cons.2 ⟨le_refl _, hc'.2⟩) hlt] at this
          simpa [Memory.read] using this
        · exact he
        · refine absurd ?_ hc'.2.2.1
          have := (h c'.1).symm
          rw [Memory.read_below (Memory.wfFrom_cons.2 ⟨le_refl _, hc.2⟩) hgt] at this
          simpa [Memory.read] using this
      have hv : c.2 = c'.2 := by simpa [Memory.read, hk] using h c.1
      have ht : m = m' := by
        refine ih hc.2.2.2 (hk ▸ hc'.2.2.2) fun a => ?_
        by_cases ha : a < c.1 + 1
        · rw [Memory.read_below hc.2.2.2 ha, Memory.read_below (hk ▸ hc'.2.2.2) ha]
        · have := h a
          simp only [Memory.read] at this
          rwa [if_neg (by omega), if_neg (by omega)] at this
      rw [ht, Prod.ext hk hv]

theorem Memory.eq_of_read {m m' : Memory} (hm : m.wf = true) (hm' : m'.wf = true) (h : ∀ a, m.read a = m'.read a) :
    m = m' := Memory.eq_of_read_from hm hm' h

theorem Memory.reset_wf : State.reset.mem.wf = true := rfl

@[simp] theorem fontBytes_length (f : Font) : (fontBytes f).length = 80 := by simp [fontBytes]

/-- Row `k` of glyph `d` is byte `5 * d + k` of the font (R53). -/
theorem fontBytes_getD (f : Font) {d k : Nat} (hd : d < 16) (hk : k < 5) : (fontBytes f).getD (5 * d + k) 0 = (f[d])[k] := by
  have h : ∀ (l : List (Vector Byte 5)) (d : Nat) (hd : d < l.length),
      (l.flatMap Vector.toList).getD (5 * d + k) 0 = (l[d])[k] := by
    intro l
    induction l with
    | nil => intro d hd; simp at hd
    | cons v l ih =>
      rintro (_ | d) hd
      · simp [List.getElem?_append, hk]
      · have hl := ih d (by simpa using hd)
        have h1 : ¬ 5 * (d + 1) + k < 5 := by omega
        have h2 : 5 * (d + 1) + k - 5 = 5 * d + k := by omega
        simp [List.getElem?_append] at hl ⊢
        simp [h1, h2, hl]
  have hf := h f.toList d (by simpa using hd)
  simpa [fontBytes] using hf

theorem Memory.fresh_wf (f : Font) : (freshMemory f).wf = true :=
  Memory.writeFrom_wf _ rfl (by simp [fontBytes, memSize])

theorem State.store_wf {s : State} (cs : List Nat) (bs : List Byte) (hm : s.mem.wf = true)
    (hcs : ∀ c ∈ cs, c < memSize) : (s.store cs bs).mem.wf = true :=
  Memory.writeAll_wf _ hm fun _ hc => hcs _ (List.of_mem_zip hc).1

theorem Memory.placeWord_wf {m : Memory} (pc : Word) (w : Nat) (hm : m.wf = true) : (m.placeWord pc w).wf = true :=
  Memory.write_wf _ (Nat.mod_lt _ (by decide)) (Memory.write_wf _ (Nat.mod_lt _ (by decide)) hm)

end Sys2Proof.Machine
end

