-- ==== Sys2Proof/Laws/Ops.lean ====
section
/-! SUPPORT. What the shared operations do: the range check, block transfers, the stack, the key test, the clock. -/

namespace Sys2Proof.Machine

/-! ### The range check (R54, R254) -/

theorem access_ok {p : OobPolicy} {a : Nat} (h : p = .wrap ∨ a < memSize) : access p a = .ok (a % memSize) := by
  unfold access
  split
  · next hlt => rw [Nat.mod_eq_of_lt hlt]
  · next hlt => obtain rfl := h.resolve_right hlt; rfl

theorem access_error {a : Nat} (h : memSize ≤ a) :
    access .fault a = .error (.memoryOutOfRange (BitVec.ofNat 16 a)) := by
  simp [access, Nat.not_lt.2 h]

/-- In range, the cells are the addresses modulo the memory size, in order. -/
theorem span_ok {p : OobPolicy} {base n : Nat} (h : p = .wrap ∨ n = 0 ∨ base + n ≤ memSize) :
    span p base n = .ok ((List.range n).map fun k => (base + k) % memSize) := by
  induction n generalizing base with
  | zero => rfl
  | succ n ih =>
    have ha : access p base = .ok (base % memSize) := access_ok (h.imp_right fun h => by omega)
    have hs : span p (base + 1) n = .ok ((List.range n).map fun k => (base + 1 + k) % memSize) :=
      ih (h.imp_right fun h => by omega)
    simp only [span, ha, hs, List.range_succ_eq_map, List.map_cons, List.map_map, Nat.add_zero]
    congr 2
    exact List.map_congr_left fun k _ => by simp only [Function.comp]; congr 1; omega

/-- Out of range under `fault`, the condition records the first address above 0xFFF: `max(base, 0x1000)` (R254). -/
theorem span_error {base n : Nat} (hn : n ≠ 0) (h : memSize < base + n) :
    span .fault base n = .error (.memoryOutOfRange (BitVec.ofNat 16 (max base memSize))) := by
  induction n generalizing base with
  | zero => exact absurd rfl hn
  | succ n ih =>
    by_cases hb : memSize ≤ base
    · simp only [span, access_error hb, Nat.max_eq_left hb]
    · have ha : access .fault base = .ok (base % memSize) := access_ok (.inr (by omega))
      have hs := ih (base := base + 1) (by omega) (by omega)
      simp only [span, ha, hs]
      rw [Nat.max_eq_right (by omega), Nat.max_eq_right (by omega)]

theorem inRange_iff (s : State) (n : Nat) :
    InRange s n ↔ s.cfg.oobPolicy = .wrap ∨ n = 0 ∨ s.i.toNat + n ≤ memSize := by
  simp only [InRange, memSize]
  constructor <;> rintro (h | h | h) <;> first | exact .inl h | exact .inr (.inl h) | exact .inr (.inr (by omega))

/-- The transfer at `I` in range: item `k` is in cell `itemCell s k`. -/
theorem span_inRange {s : State} {n : Nat} (h : InRange s n) :
    span s.cfg.oobPolicy s.i.toNat n = .ok ((List.range n).map (itemCell s)) :=
  span_ok ((inRange_iff s n).1 h)

/-- The transfer at `I` out of range. -/
theorem span_outOfRange {s : State} {n : Nat} (h : ¬ InRange s n) :
    s.cfg.oobPolicy = .fault ∧ span s.cfg.oobPolicy s.i.toNat n = .error (.memoryOutOfRange (firstOutOfRange s)) := by
  rw [inRange_iff] at h
  push Not at h
  have hf : s.cfg.oobPolicy = .fault := by
    cases hp : s.cfg.oobPolicy with
    | fault => rfl
    | wrap => exact absurd hp h.1
  exact ⟨hf, by rw [hf, span_error h.2.1 h.2.2]; rfl⟩

/-- Every cell of a span is inside memory. -/
theorem span_lt {p : OobPolicy} {base n : Nat} {cs : List Nat} (h : span p base n = .ok cs) : ∀ c ∈ cs, c < memSize := by
  induction n generalizing base cs with
  | zero =>
    simp only [span, Except.ok.injEq] at h
    simp [← h]
  | succ n ih =>
    unfold span at h
    split at h
    · cases h
    · next c hc =>
      split at h
      · cases h
      · next cs' hcs =>
        simp only [Except.ok.injEq] at h
        subst h
        intro d hd
        rcases List.mem_cons.1 hd with rfl | hd
        · unfold access at hc
          split at hc
          · next hlt => simp only [Except.ok.injEq] at hc; omega
          · split at hc
            · cases hc
            · simp only [Except.ok.injEq] at hc
              exact hc ▸ Nat.mod_lt _ (by decide)
        · exact ih hcs d hd

/-- A transfer of `n` items takes `n` cells. -/
theorem span_length {p : OobPolicy} {base n : Nat} {cs : List Nat} (h : span p base n = .ok cs) : cs.length = n := by
  induction n generalizing base cs with
  | zero =>
    simp only [span, Except.ok.injEq] at h
    simp [← h]
  | succ n ih =>
    simp only [span] at h
    split at h
    · cases h
    · split at h
      · cases h
      · next hs => cases h; rw [List.length_cons, ih hs]

theorem itemCell_lt (s : State) (k : Nat) : itemCell s k < memSize := Nat.mod_lt _ (by decide)

/-- Fewer than 4096 items at `I` are in different cells. -/
theorem itemCell_inj {s : State} {j k : Nat} (hj : j < 4096) (hk : k < 4096) (h : itemCell s j = itemCell s k) : j = k := by
  simp only [itemCell] at h
  omega

/-! ### Block transfers (R193 to R195) -/

/-- Bytes stored at `I`, item by item (R55). -/
theorem State.read_store_items {s : State} {n : Nat} {bs : List Byte} (hm : s.mem.wf = true) (hb : bs.length = n)
    (hn : n ≤ 4096) (a : Nat) :
    (∀ k, k < n → a = itemCell s k → (s.store ((List.range n).map (itemCell s)) bs).mem.read a = bs.getD k 0) ∧
      ((∀ k, k < n → a ≠ itemCell s k) → (s.store ((List.range n).map (itemCell s)) bs).mem.read a = s.mem.read a) := by
  have hlt : ∀ c ∈ ((List.range n).map (itemCell s)).zip bs, c.1 < memSize := by
    intro c hc
    obtain ⟨k, -, hk⟩ := List.mem_map.1 (List.of_mem_zip hc).1
    exact hk ▸ itemCell_lt s k
  have hfst : (((List.range n).map (itemCell s)).zip bs).map Prod.fst = (List.range n).map (itemCell s) :=
    List.map_fst_zip (by simp [hb])
  constructor
  · rintro k hk rfl
    have hmem : (itemCell s k, bs.getD k 0) ∈ ((List.range n).map (itemCell s)).zip bs := by
      rw [List.mem_iff_getElem]
      refine ⟨k, by simp [hb, hk], ?_⟩
      simp [List.getElem_zip, hb, hk]
    refine Memory.read_writeAll_mem _ hm hlt ?_ hmem
    rw [hfst]
    refine List.Nodup.map_on ?_ List.nodup_range
    intro i hi j hj h
    exact itemCell_inj (by have := List.mem_range.1 hi; omega) (by have := List.mem_range.1 hj; omega) h
  · intro h
    refine Memory.read_writeAll_other _ hm hlt fun c hc => ?_
    obtain ⟨k, hk, hke⟩ := List.mem_map.1 (List.of_mem_zip hc).1
    exact hke ▸ (h k (List.mem_range.1 hk)).symm

@[simp] theorem State.regsUpTo_length (s : State) (x : RegIdx) : (s.regsUpTo x).length = x.toNat + 1 := by
  simp [State.regsUpTo]

/-- Item `k` of the registers stored is `V[k]` (R194). -/
theorem State.regsUpTo_getD (s : State) (x : RegIdx) {k : Nat} (h : k < x.toNat + 1) :
    (s.regsUpTo x).getD k 0 = s.reg (BitVec.ofNat 4 k) := by
  simp [State.regsUpTo, List.getD_eq_getElem?_getD, h]

/-- Registers loaded from `k` on change nothing but `v`. -/
theorem State.setRegs_other (s : State) (k : Nat) (bs : List Byte) : s.setRegs k bs = { s with v := (s.setRegs k bs).v } := by
  induction bs generalizing s k with
  | nil => rfl
  | cons b bs ih =>
    rw [State.setRegs, ih]
    rfl

@[simp] theorem State.setRegs_mem (s : State) (k : Nat) (bs : List Byte) : (s.setRegs k bs).mem = s.mem := by
  rw [State.setRegs_other]
@[simp] theorem State.setRegs_i (s : State) (k : Nat) (bs : List Byte) : (s.setRegs k bs).i = s.i := by
  rw [State.setRegs_other]
@[simp] theorem State.setRegs_pc (s : State) (k : Nat) (bs : List Byte) : (s.setRegs k bs).pc = s.pc := by
  rw [State.setRegs_other]
@[simp] theorem State.setRegs_stack (s : State) (k : Nat) (bs : List Byte) : (s.setRegs k bs).stack = s.stack := by
  rw [State.setRegs_other]
@[simp] theorem State.setRegs_sp (s : State) (k : Nat) (bs : List Byte) : (s.setRegs k bs).sp = s.sp := by
  rw [State.setRegs_other]
@[simp] theorem State.setRegs_dt (s : State) (k : Nat) (bs : List Byte) : (s.setRegs k bs).dt = s.dt := by
  rw [State.setRegs_other]
@[simp] theorem State.setRegs_st (s : State) (k : Nat) (bs : List Byte) : (s.setRegs k bs).st = s.st := by
  rw [State.setRegs_other]
@[simp] theorem State.setRegs_fb (s : State) (k : Nat) (bs : List Byte) : (s.setRegs k bs).fb = s.fb := by
  rw [State.setRegs_other]
@[simp] theorem State.setRegs_keys (s : State) (k : Nat) (bs : List Byte) : (s.setRegs k bs).keys = s.keys := by
  rw [State.setRegs_other]
@[simp] theorem State.setRegs_wait (s : State) (k : Nat) (bs : List Byte) : (s.setRegs k bs).wait = s.wait := by
  rw [State.setRegs_other]
@[simp] theorem State.setRegs_halt (s : State) (k : Nat) (bs : List Byte) : (s.setRegs k bs).halt = s.halt := by
  rw [State.setRegs_other]
@[simp] theorem State.setRegs_cfg (s : State) (k : Nat) (bs : List Byte) : (s.setRegs k bs).cfg = s.cfg := by
  rw [State.setRegs_other]
@[simp] theorem State.setRegs_rnd (s : State) (k : Nat) (bs : List Byte) : (s.setRegs k bs).rnd = s.rnd := by
  rw [State.setRegs_other]
@[simp] theorem State.setRegs_inputs (s : State) (k : Nat) (bs : List Byte) : (s.setRegs k bs).inputs = s.inputs := by
  rw [State.setRegs_other]
@[simp] theorem State.setRegs_drawn (s : State) (k : Nat) (bs : List Byte) : (s.setRegs k bs).drawn = s.drawn := by
  rw [State.setRegs_other]
@[simp] theorem State.setRegs_diagnostics (s : State) (k : Nat) (bs : List Byte) : (s.setRegs k bs).diagnostics = s.diagnostics := by
  rw [State.setRegs_other]
@[simp] theorem State.pixel_setRegs (s : State) (k : Nat) (bs : List Byte) (r : Fin 32) (c : Fin 64) :
    (s.setRegs k bs).pixel r c = s.pixel r c := State.pixel_congr (State.setRegs_fb s k bs) r c

/-- Register `r` after bytes are loaded into `V[k]`, `V[k + 1]`, ... (R195). -/
theorem State.reg_setRegs (s : State) (k : Nat) (bs : List Byte) (h : k + bs.length ≤ 16) (r : RegIdx) :
    (s.setRegs k bs).reg r = if k ≤ r.toNat ∧ r.toNat < k + bs.length then bs.getD (r.toNat - k) 0 else s.reg r := by
  induction bs generalizing s k with
  | nil => simp [State.setRegs]
  | cons b bs ih =>
    rw [List.length_cons] at h
    have hk : (BitVec.ofNat 4 k).toNat = k := by simp only [BitVec.toNat_ofNat]; omega
    have hrk : r = BitVec.ofNat 4 k ↔ r.toNat = k := by rw [← BitVec.toNat_inj, hk]
    rw [State.setRegs, ih _ _ (by omega), State.reg_setReg, List.length_cons]
    simp only [hrk]
    by_cases hx : r.toNat = k
    · simp [hx]
    · by_cases hr : k + 1 ≤ r.toNat ∧ r.toNat < k + 1 + bs.length
      · obtain ⟨j, hj⟩ : ∃ j, r.toNat = k + 1 + j := ⟨r.toNat - (k + 1), by omega⟩
        rw [if_pos hr, if_pos (by omega), hj, show k + 1 + j - k = j + 1 by omega, show k + 1 + j - (k + 1) = j by omega]
        simp
      · rw [if_neg hr, if_neg hx, if_neg (by omega)]

/-! ### The stack (R26) -/

theorem State.push_full {s : State} (h : s.sp = 16) (w : Word) : s.push w = none := by simp [State.push, h]

theorem State.push_ok {s : State} (h : s.sp ≠ 16) (w : Word) :
    ∃ hlt : s.sp.val < 16, s.push w = some (s.setStack (s.stack.set s.sp.val w hlt) ⟨s.sp.val + 1, by omega⟩) := by
  have hlt : s.sp.val < 16 := by
    have := s.sp.isLt
    have : s.sp.val ≠ 16 := fun he => h (Fin.ext he)
    omega
  exact ⟨hlt, by simp [State.push, hlt]⟩

theorem State.pop_empty {s : State} (h : s.sp = 0) : s.pop = none := by simp [State.pop, h]

theorem State.pop_ok {s : State} (h : s.sp ≠ 0) :
    ∃ hlt : s.sp.val - 1 < 16, s.pop = some (s.stack[s.sp.val - 1], s.setStack s.stack ⟨s.sp.val - 1, by omega⟩) := by
  have hne : s.sp.val ≠ 0 := fun he => h (Fin.ext he)
  exact ⟨by omega, by simp [State.pop, hne]⟩

/-! ### Keys (R102, R146) -/

theorem lowestKey_none {e : Word} : lowestKey e = none ↔ e = 0 := by
  simp only [lowestKey, Option.map_eq_none_iff, List.find?_eq_none, List.mem_range]
  constructor
  · intro h
    refine BitVec.eq_of_getLsbD_eq fun k hk => ?_
    simpa using h k hk
  · rintro rfl k -
    simp

/-- The key delivered is down among the edges, and no lower one is (D21). -/
theorem lowestKey_some {e : Word} {k : BitVec 4} (h : lowestKey e = some k) :
    e.getLsbD k.toNat = true ∧ ∀ j, j < k.toNat → e.getLsbD j = false := by
  simp only [lowestKey, Option.map_eq_some_iff] at h
  obtain ⟨n, hn, rfl⟩ := h
  have hlt : n < 16 := List.mem_range.1 (List.mem_of_find?_eq_some hn)
  have he : (BitVec.ofNat 4 n).toNat = n := by simp only [BitVec.toNat_ofNat]; omega
  rw [he]
  obtain ⟨h1, as, bs, has, h2⟩ := List.find?_eq_some_iff_append.1 hn
  refine ⟨h1, fun j hj => ?_⟩
  have hlen : as.length = n := by
    have := congrArg (fun l => l[as.length]?) has
    simp only [List.getElem?_append_right (Nat.le_refl _), Nat.sub_self, List.getElem?_cons_zero] at this
    rw [List.getElem?_eq_some_iff] at this
    obtain ⟨_, h'⟩ := this
    simpa using h'
  have hjm : j ∈ as := by
    have := congrArg (fun l => l[j]?) has
    simp only [List.getElem?_append_left (hlen ▸ hj)] at this
    rw [List.getElem?_range (by omega)] at this
    exact List.mem_of_getElem? this.symm
  simpa using h2 j hjm

/-! ### The clock (R264) -/

@[simp] theorem countDown_toNat (t : Byte) : (countDown t).toNat = t.toNat - 1 := by
  unfold countDown
  split
  · next h => simp [h]
  · next h =>
    have : t.toNat ≠ 0 := fun he => h (by simpa using BitVec.eq_of_toNat_eq (x := t) (y := 0) he)
    rw [BitVec.toNat_sub]
    simp
    omega

end Sys2Proof.Machine
end

