-- ==== Sys2Proof/Laws/Cycle.lean ====
section
/-! SUPPORT. What an instruction, a cycle, an event and a step can do, said once: later proofs cite these and do not unfold `exec`, `cycle` or `step`. -/

namespace Sys2Proof.Machine

/-- A step with an event queued handles that event. -/
theorem step_cons {s : State} {e : Event} {rest : List Event} (h : s.inputs = e :: rest) :
    step s = handle e { s with inputs := rest } := by
  simp [step, State.takeEvent, h]

/-- The fetch depends on memory, PC and the configuration alone. -/
theorem fetch_congr {s t : State} (hm : t.mem = s.mem) (hp : t.pc = s.pc) (hc : t.cfg = s.cfg) : fetch t = fetch s := by
  simp [fetch, hm, hp, hc]

@[simp] theorem fetch_latch (s : State) (k : Word) (b : Byte) : fetch (s.latch k b) = fetch s := rfl
@[simp] theorem fetch_raise (s : State) (f : FatalCondition) : fetch (s.raise f) = fetch s := rfl

/-- Under the fault policy a fetched word lies wholly inside memory (R58). -/
theorem fetch_pc_le {s : State} {w : Word} (h : fetch s = .ok w) (hp : s.cfg.oobPolicy = .fault) : s.pc.toNat ≤ 0xFFE := by
  unfold fetch at h
  split at h
  · cases h
  · next hn => have : ¬ s.pc.toNat + 1 > 0xFFF := fun hgt => hn ⟨hp, hgt⟩; omega

/-- The only fetch error is PC itself out of range under the fault policy (R103). -/
theorem fetch_error {s : State} {f : FatalCondition} (h : fetch s = .error f) :
    s.cfg.oobPolicy = .fault ∧ s.pc.toNat + 1 > 0xFFF ∧ f = .memoryOutOfRange s.pc := by
  unfold fetch at h
  split at h
  · next hn => cases h; exact ⟨hn.1, hn.2, rfl⟩
  · cases h

/-- Raising a fatal condition changes HALT and nothing else (R256). -/
theorem State.raise_raises (s : State) (f : FatalCondition) : Raises s (s.raise f) f :=
  ⟨rfl, ⟨rfl, rfl, rfl, rfl⟩, fun p hp => by cases p <;> simp_all [Agrees]⟩

/-! ### One instruction -/

/-- `SYS` and Unknown words: fatal under `Strict`, else a diagnostic and `PC + 2` (R120, R125). -/
theorem execUnknown_cases (w : Word) (s : State) :
    (s.cfg.unknownPolicy = .strict ∧ execUnknown w s = .next (s.raise (.unknownOpcode w))) ∨
      (s.cfg.unknownPolicy = .lenient ∧ execUnknown w s = .next (s.emit ⟨s.pc, w⟩).advance) := by
  unfold execUnknown
  split
  · next h => exact .inl ⟨h, rfl⟩
  · next h => exact .inr ⟨h, rfl⟩

/-- An instruction always gives a next state. It never touches the configuration, the random byte, the environment's events
or KEYS, and it leaves HALT alone unless it raises, which changes nothing else. -/
theorem exec_next (i : Instr) (s : State) :
    ∃ t, exec i s = .next t ∧ t.cfg = s.cfg ∧ t.rnd = s.rnd ∧ t.inputs = s.inputs ∧ t.drawn = s.drawn ∧ t.keys = s.keys ∧
      (t.halt = s.halt ∨ ∃ f, t = s.raise f) := by
  cases i with
  | sys nnn =>
    obtain ⟨_, h⟩ | ⟨_, h⟩ := execUnknown_cases (formatNNN 0x0#4 nnn) s
    · exact ⟨_, h, rfl, rfl, rfl, rfl, rfl, .inr ⟨_, rfl⟩⟩
    · exact ⟨_, h, rfl, rfl, rfl, rfl, rfl, .inl rfl⟩
  | ret =>
    by_cases h : s.sp = 0
    · simp only [exec, execRet, State.pop_empty h]
      exact ⟨_, rfl, rfl, rfl, rfl, rfl, rfl, .inr ⟨_, rfl⟩⟩
    · obtain ⟨_, h⟩ := State.pop_ok h
      simp only [exec, execRet, h]
      exact ⟨_, rfl, rfl, rfl, rfl, rfl, rfl, .inl rfl⟩
  | call nnn =>
    by_cases h : s.sp = 16
    · simp only [exec, execCall, State.push_full h]
      exact ⟨_, rfl, rfl, rfl, rfl, rfl, rfl, .inr ⟨_, rfl⟩⟩
    · obtain ⟨_, h⟩ := State.push_ok h (s.pc + 2)
      simp only [exec, execCall, h]
      exact ⟨_, rfl, rfl, rfl, rfl, rfl, rfl, .inl rfl⟩
  | drw x y n =>
    simp only [exec, execDrw]
    split
    · exact ⟨_, rfl, rfl, rfl, rfl, rfl, rfl, .inr ⟨_, rfl⟩⟩
    · exact ⟨_, rfl, rfl, rfl, rfl, rfl, rfl, .inl rfl⟩
  | ldB x =>
    simp only [exec, execLdB]
    split
    · exact ⟨_, rfl, rfl, rfl, rfl, rfl, rfl, .inr ⟨_, rfl⟩⟩
    · exact ⟨_, rfl, rfl, rfl, rfl, rfl, rfl, .inl rfl⟩
  | ldMemVx x =>
    simp only [exec, execLdMemVx]
    split
    · exact ⟨_, rfl, rfl, rfl, rfl, rfl, rfl, .inr ⟨_, rfl⟩⟩
    · exact ⟨_, rfl, rfl, rfl, rfl, rfl, rfl, .inl rfl⟩
  | ldVxMem x =>
    simp only [exec, execLdVxMem]
    split
    · exact ⟨_, rfl, rfl, rfl, rfl, rfl, rfl, .inr ⟨_, rfl⟩⟩
    · rw [State.setRegs_other]; exact ⟨_, rfl, rfl, rfl, rfl, rfl, rfl, .inl rfl⟩
  | _ => exact ⟨_, rfl, rfl, rfl, rfl, rfl, rfl, .inl rfl⟩

theorem execWord_instr {w : Word} {i : Instr} (h : decode w = .instr i) (s : State) : execWord w s = exec i s := by
  simp [execWord, h]

theorem execWord_unknown {w u : Word} (h : decode w = .unknown u) (s : State) : execWord w s = execUnknown u s := by
  simp [execWord, h]

/-- A word executed gives a next state with the same properties (R104, R125). -/
theorem execWord_next (w : Word) (s : State) :
    ∃ t, execWord w s = .next t ∧ t.cfg = s.cfg ∧ t.rnd = s.rnd ∧ t.inputs = s.inputs ∧ t.drawn = s.drawn ∧
      t.keys = s.keys ∧ (t.halt = s.halt ∨ ∃ f, t = s.raise f) := by
  unfold execWord
  split
  · exact exec_next _ s
  · next u _ =>
    obtain ⟨_, h⟩ | ⟨_, h⟩ := execUnknown_cases u s
    · exact ⟨_, h, rfl, rfl, rfl, rfl, rfl, .inr ⟨_, rfl⟩⟩
    · exact ⟨_, h, rfl, rfl, rfl, rfl, rfl, .inl rfl⟩

/-! ### One cycle (R100) -/

theorem cycle_halted {s : State} (h : s.halt ≠ none) (k : Word) (b : Byte) : cycle k b s = .next s := by
  obtain ⟨f, hf⟩ := Option.ne_none_iff_exists'.1 h
  simp [cycle, hf]

theorem cycle_waiting {s : State} {r : RegIdx} (h : s.halt = none) (hw : s.wait = some r) (k : Word) (b : Byte) :
    cycle k b s = .next ((s.latch k b).waitCycle r (keyEdges s.keys k)) := by
  simp [cycle, h, hw]

theorem cycle_unfetchable {s : State} {f : FatalCondition} (h : s.halt = none) (hw : s.wait = none)
    (hf : fetch s = .error f) (k : Word) (b : Byte) : cycle k b s = .next (s.raise f) := by
  simp [cycle, h, hw, hf]

theorem cycle_fetched {s : State} {w : Word} (h : s.halt = none) (hw : s.wait = none) (hf : fetch s = .ok w)
    (k : Word) (b : Byte) : cycle k b s = commit s (execWord w (s.latch k b)) := by
  simp [cycle, h, hw, hf]

theorem commit_ok {s t : State} (h : t.halt = none) : commit s (.next t) = .next t := by
  simp [commit, h]

theorem commit_raise {s t : State} {f : FatalCondition} (h : t.halt = some f) : commit s (.next t) = .next (s.raise f) := by
  simp [commit, h]

/-- Everything a cycle can do: stay halted; wait; raise, changing nothing but HALT; or execute the fetched word. -/
theorem cycle_cases (k : Word) (b : Byte) (s : State) :
    (s.halt ≠ none ∧ cycle k b s = .next s) ∨
    (∃ r, s.halt = none ∧ s.wait = some r ∧ cycle k b s = .next ((s.latch k b).waitCycle r (keyEdges s.keys k))) ∨
    (∃ f, s.halt = none ∧ s.wait = none ∧ fetch s = .error f ∧ cycle k b s = .next (s.raise f)) ∨
    (∃ w f, s.halt = none ∧ s.wait = none ∧ fetch s = .ok w ∧ execWord w (s.latch k b) = .next ((s.latch k b).raise f) ∧
      cycle k b s = .next (s.raise f)) ∨
    (∃ w t, s.halt = none ∧ s.wait = none ∧ fetch s = .ok w ∧ execWord w (s.latch k b) = .next t ∧ t.halt = none ∧
      cycle k b s = .next t) := by
  by_cases h : s.halt = none
  · cases hw : s.wait with
    | some r => exact .inr (.inl ⟨r, h, rfl, cycle_waiting h hw k b⟩)
    | none =>
      cases hf : fetch s with
      | error f => exact .inr (.inr (.inl ⟨f, h, rfl, rfl, cycle_unfetchable h hw hf k b⟩))
      | ok w =>
        obtain ⟨t, ht, -, -, -, -, -, hh⟩ := execWord_next w (s.latch k b)
        have hc := cycle_fetched h hw hf k b
        rw [ht] at hc
        obtain hh | ⟨f, rfl⟩ := hh
        · rw [commit_ok (hh.trans h)] at hc
          exact .inr (.inr (.inr (.inr ⟨w, t, h, rfl, rfl, ht, hh.trans h, hc⟩)))
        · rw [commit_raise rfl] at hc
          exact .inr (.inr (.inr (.inl ⟨w, f, h, rfl, rfl, ht, hc⟩)))
  · exact .inl ⟨h, cycle_halted h k b⟩

/-- The wait branch keeps everything but the register, PC and WAIT (R102). -/
theorem waitCycle_cases (s : State) (r : RegIdx) (edges : Word) :
    (edges = 0 ∧ s.waitCycle r edges = s) ∨
      ∃ k, lowestKey edges = some k ∧ s.waitCycle r edges = ((s.setReg r (k.zeroExtend 8)).advance).setWait none := by
  unfold State.waitCycle
  split
  · next h => exact .inl ⟨lowestKey_none.1 h, rfl⟩
  · next k h => exact .inr ⟨k, h, rfl⟩

/-- A tick of a machine that is not halted counts both timers; a halted machine's does nothing (R264). -/
theorem tick_cases (s : State) :
    (s.halt ≠ none ∧ tick s = s) ∨ (s.halt = none ∧ tick s = (s.setDt (countDown s.dt)).setSt (countDown s.st)) := by
  unfold tick
  split
  · next f h => exact .inl ⟨by simp [h], rfl⟩
  · next h => exact .inr ⟨h, rfl⟩

/-! ### Waiting for ever (R306) -/

/-- Dropping the first event of a schedule. -/
theorem keysBefore_succ (keys : Word) (events : Nat → Event) (n : Nat) :
    keysBefore (keysBefore keys events 1) (fun k => events (k + 1)) n = keysBefore keys events (n + 1) := by
  induction n with
  | zero => rfl
  | succ n ih => exact congrArg (keysAfter · (events (n + 1))) ih

theorem NoKeyEdge.tail {keys : Word} {events : Nat → Event} (h : NoKeyEdge keys events) :
    NoKeyEdge (keysBefore keys events 1) fun k => events (k + 1) := fun n keysIn rnd he => by
  rw [keysBefore_succ]; exact h (n + 1) keysIn rnd he

theorem NoReset.tail {events : Nat → Event} (h : NoReset events) : NoReset fun k => events (k + 1) :=
  fun n => h (n + 1)

/-- A waiting cycle without an edge stores its arguments and does nothing else (R102). -/
theorem cycle_noEdge {s : State} (h : s.Waiting) {k : Word} (he : keyEdges s.keys k = 0) (b : Byte) :
    cycle k b s = .next (s.latch k b) := by
  obtain ⟨hh, hw⟩ := h
  obtain ⟨r, hr⟩ := Option.ne_none_iff_exists'.1 hw
  rw [cycle_waiting hh hr, he]
  simp [State.waitCycle, lowestKey_none.2]

/-- The first event of a machine that waits for ever: only KEYS, the random byte and the timers may change. -/
theorem handle_waitsForever {s : State} {events : Nat → Event} (h : s.WaitsForever events) :
    ∃ t, handle (events 0) s = .next t ∧ t.keys = keysBefore s.keys events 1 ∧
      ((∃ k b, t = s.latch k b) ∨ t = (s.setDt (countDown s.dt)).setSt (countDown s.st)) := by
  obtain ⟨hw, hr, he⟩ := h
  simp only [keysBefore]
  cases h0 : events 0 with
  | reset image => exact absurd h0 (hr 0 image)
  | cycle k b => exact ⟨_, cycle_noEdge hw (he 0 k b h0) b, rfl, .inl ⟨k, b, rfl⟩⟩
  | tick =>
    obtain ⟨hh, -⟩ | ⟨-, ht⟩ := tick_cases s
    · exact absurd hw.1 hh
    · exact ⟨_, rfl, by rw [ht]; rfl, .inr ht⟩

end Sys2Proof.Machine
end

