-- ==== Sys2Proof/Laws/Decode.lean ====
section
/-! SUPPORT. The fields of a word built from nibbles (30_encoding.md R71, R72), and a word rebuilt from its fields. -/

namespace Sys2Proof

/-! ### Words and fields as numbers -/

theorem toNat_append_eq {n m : Nat} (a : BitVec n) (b : BitVec m) : (a ++ b).toNat = a.toNat * 2 ^ m + b.toNat := by
  rw [BitVec.toNat_append, ← Nat.shiftLeft_add_eq_or_of_lt b.isLt, Nat.shiftLeft_eq]

theorem formatNNN_toNat (k : BitVec 4) (a : Addr12) : (formatNNN k a).toNat = k.toNat * 4096 + a.toNat :=
  toNat_append_eq k a

theorem formatXNN_toNat (k : BitVec 4) (x : RegIdx) (nn : Byte) :
    (formatXNN k x nn).toNat = k.toNat * 4096 + x.toNat * 256 + nn.toNat := by
  have h1 := toNat_append_eq (k ++ x) nn
  have h2 := toNat_append_eq k x
  have h : (formatXNN k x nn).toNat = ((k ++ x) ++ nn).toNat := rfl
  omega

theorem formatXYN_toNat (k : BitVec 4) (x y : RegIdx) (n : Nibble) :
    (formatXYN k x y n).toNat = k.toNat * 4096 + x.toNat * 256 + y.toNat * 16 + n.toNat := by
  have h1 := toNat_append_eq (k ++ x ++ y) n
  have h2 := toNat_append_eq (k ++ x) y
  have h3 := toNat_append_eq k x
  have h : (formatXYN k x y n).toNat = ((k ++ x ++ y) ++ n).toNat := rfl
  omega

theorem wordOfBytes_toNat (a b : Byte) : (wordOfBytes a b).toNat = a.toNat * 256 + b.toNat := toNat_append_eq a b

theorem fieldOp_toNat (w : Word) : (fieldOp w).toNat = w.toNat / 4096 := by
  simp only [fieldOp, BitVec.extractLsb'_toNat, Nat.shiftRight_eq_div_pow]
  omega

theorem fieldX_toNat (w : Word) : (fieldX w).toNat = w.toNat / 256 % 16 := by
  simp only [fieldX, BitVec.extractLsb'_toNat, Nat.shiftRight_eq_div_pow]

theorem fieldY_toNat (w : Word) : (fieldY w).toNat = w.toNat / 16 % 16 := by
  simp only [fieldY, BitVec.extractLsb'_toNat, Nat.shiftRight_eq_div_pow]

theorem fieldN_toNat (w : Word) : (fieldN w).toNat = w.toNat % 16 := by
  simp [fieldN, BitVec.extractLsb'_toNat]

theorem fieldNN_toNat (w : Word) : (fieldNN w).toNat = w.toNat % 256 := by
  simp [fieldNN, BitVec.extractLsb'_toNat]

theorem fieldNNN_toNat (w : Word) : (fieldNNN w).toNat = w.toNat % 4096 := by
  simp [fieldNNN, BitVec.extractLsb'_toNat]

/-! ### The fields of each format -/

@[simp] theorem fieldOp_formatNNN (k : BitVec 4) (a : Addr12) : fieldOp (formatNNN k a) = k := by
  apply BitVec.eq_of_toNat_eq; rw [fieldOp_toNat, formatNNN_toNat]; omega
@[simp] theorem fieldNNN_formatNNN (k : BitVec 4) (a : Addr12) : fieldNNN (formatNNN k a) = a := by
  apply BitVec.eq_of_toNat_eq; rw [fieldNNN_toNat, formatNNN_toNat]; omega

@[simp] theorem fieldOp_formatXNN (k : BitVec 4) (x : RegIdx) (nn : Byte) : fieldOp (formatXNN k x nn) = k := by
  apply BitVec.eq_of_toNat_eq; rw [fieldOp_toNat, formatXNN_toNat]; omega
@[simp] theorem fieldX_formatXNN (k : BitVec 4) (x : RegIdx) (nn : Byte) : fieldX (formatXNN k x nn) = x := by
  apply BitVec.eq_of_toNat_eq; rw [fieldX_toNat, formatXNN_toNat]; omega
@[simp] theorem fieldNN_formatXNN (k : BitVec 4) (x : RegIdx) (nn : Byte) : fieldNN (formatXNN k x nn) = nn := by
  apply BitVec.eq_of_toNat_eq; rw [fieldNN_toNat, formatXNN_toNat]; omega

@[simp] theorem fieldOp_formatXYN (k : BitVec 4) (x y : RegIdx) (n : Nibble) : fieldOp (formatXYN k x y n) = k := by
  apply BitVec.eq_of_toNat_eq; rw [fieldOp_toNat, formatXYN_toNat]; omega
@[simp] theorem fieldX_formatXYN (k : BitVec 4) (x y : RegIdx) (n : Nibble) : fieldX (formatXYN k x y n) = x := by
  apply BitVec.eq_of_toNat_eq; rw [fieldX_toNat, formatXYN_toNat]; omega
@[simp] theorem fieldY_formatXYN (k : BitVec 4) (x y : RegIdx) (n : Nibble) : fieldY (formatXYN k x y n) = y := by
  apply BitVec.eq_of_toNat_eq; rw [fieldY_toNat, formatXYN_toNat]; omega
@[simp] theorem fieldN_formatXYN (k : BitVec 4) (x y : RegIdx) (n : Nibble) : fieldN (formatXYN k x y n) = n := by
  apply BitVec.eq_of_toNat_eq; rw [fieldN_toNat, formatXYN_toNat]; omega

/-! ### A word is the word of its fields -/

theorem formatNNN_fields (w : Word) : formatNNN (fieldOp w) (fieldNNN w) = w := by
  apply BitVec.eq_of_toNat_eq; rw [formatNNN_toNat, fieldOp_toNat, fieldNNN_toNat]; omega

theorem formatXNN_fields (w : Word) : formatXNN (fieldOp w) (fieldX w) (fieldNN w) = w := by
  apply BitVec.eq_of_toNat_eq; rw [formatXNN_toNat, fieldOp_toNat, fieldX_toNat, fieldNN_toNat]; omega

theorem formatXYN_fields (w : Word) : formatXYN (fieldOp w) (fieldX w) (fieldY w) (fieldN w) = w := by
  apply BitVec.eq_of_toNat_eq; rw [formatXYN_toNat, fieldOp_toNat, fieldX_toNat, fieldY_toNat, fieldN_toNat]; omega

/-- The bytes of the opcode table's bits, fetched in memory order, are the word again. -/
theorem wordOfBytes_tableBytes (w : Nat) : wordOfBytes (tableBytes w).1 (tableBytes w).2 = BitVec.ofNat 16 w := by
  apply BitVec.eq_of_toNat_eq
  rw [wordOfBytes_toNat]
  simp only [tableBytes, BitVec.extractLsb'_toNat, Nat.shiftRight_eq_div_pow, BitVec.toNat_ofNat]
  omega

/-- An Unknown word is reported whole (R125). -/
theorem decode_unknown_eq {w u : Word} (h : decode w = .unknown u) : u = w := by
  unfold decode at h
  split at h
  case h_1 => unfold decodeFamily0 at h; split at h <;> [skip; split at h] <;> cases h
  case h_6 => split at h <;> cases h; rfl
  case h_9 => unfold decodeFamily8 at h; split at h <;> cases h; rfl
  case h_10 => split at h <;> cases h; rfl
  case h_15 => unfold decodeFamilyE at h; split at h <;> cases h; rfl
  case h_16 => unfold decodeFamilyF at h; split at h <;> cases h; rfl
  all_goals cases h

end Sys2Proof
end

