-- ==== Sys2Proof/Laws/Display.lean ====
section
/-! SUPPORT. Drawing, pixel by pixel (45_display.md R211). -/

namespace Sys2Proof.Machine

/-- Column `c` of a sprite row: bit `7 - col` of the byte, where `col` is the distance of `c` from `x0` going right (R213). -/
theorem spriteMask_getLsbD (b : Byte) {x0 c : Nat} (hx : x0 < 64) (hc : c < 64) :
    (spriteMask b x0).getLsbD c = true ↔ ∃ col, col < 8 ∧ c = (x0 + col) % 64 ∧ b.getLsbD (7 - col) = true := by
  have hrev : ∀ j, b.reverse.getLsbD j = (decide (j < 8) && b.getLsbD (7 - j)) := by
    intro j
    rw [BitVec.getLsbD_reverse, BitVec.getMsbD]
  simp only [spriteMask, BitVec.getLsbD_rotateLeft, Nat.mod_eq_of_lt hx, BitVec.zeroExtend, BitVec.getLsbD_setWidth, hrev]
  by_cases h : c < x0
  · simp only [h, decide_true, cond_true, Bool.and_eq_true, decide_eq_true_eq]
    constructor
    · rintro ⟨-, h8, hb⟩
      exact ⟨64 - x0 + c, h8, by omega, hb⟩
    · rintro ⟨col, h8, he, hb⟩
      obtain rfl : col = 64 - x0 + c := by omega
      exact ⟨by omega, h8, hb⟩
  · simp only [h, decide_false, cond_false, Bool.and_eq_true, decide_eq_true_eq]
    constructor
    · rintro ⟨-, -, h8, hb⟩
      exact ⟨c - x0, h8, by omega, hb⟩
    · rintro ⟨col, h8, he, hb⟩
      obtain rfl : col = c - x0 := by omega
      exact ⟨hc, by omega, h8, hb⟩

/-- A sprite row drawn: the covered pixels of that screen row are complemented, no other pixel changes. -/
theorem drawRow_pixel (fb : Framebuffer) (r r' : Fin 32) (m : BitVec 64) (c : Nat) :
    ((drawRow fb r m).1[r']).getLsbD c = (fb[r'].getLsbD c ^^ (decide (r' = r) && m.getLsbD c)) := by
  by_cases h : r' = r
  · subst h; simp [drawRow]
  · have hv : r.val ≠ r'.val := fun he => h (Fin.ext he.symm)
    simp [drawRow, h, hv]

/-- A sprite row collides when a covered pixel was set. -/
theorem drawRow_hit (fb : Framebuffer) (r : Fin 32) (m : BitVec 64) :
    (drawRow fb r m).2 = true ↔ ∃ c : Fin 64, m.getLsbD c = true ∧ fb[r].getLsbD c = true := by
  simp only [drawRow, Bool.not_eq_true', decide_eq_false_iff_not]
  constructor
  · intro h
    by_contra hne
    push Not at hne
    refine h (BitVec.eq_of_getLsbD_eq fun k hk => ?_)
    have := hne ⟨k, hk⟩
    rw [BitVec.getLsbD_and, show BitVec.getLsbD (0 : BitVec 64) k = false by simp, Bool.and_eq_false_iff]
    by_cases hm : m.getLsbD k = true
    · exact .inl (by simpa using this hm)
    · exact .inr (by simpa using hm)
  · rintro ⟨c, hm, hf⟩ h0
    have h1 : (fb[r] &&& m).getLsbD c = true := by rw [BitVec.getLsbD_and, hf, hm]; rfl
    rw [h0] at h1
    simp at h1

/-- One of the sprite bytes, the first of them at sprite row `row`, covers pixel `(r, c)`. -/
def BytesCover (mode : DrawVwrap) (x0 y0 row : Nat) (bs : List Byte) (r : Fin 32) (c : Nat) : Prop :=
  ∃ k, k < bs.length ∧ screenRow mode y0 (row + k) = some r ∧ (spriteMask (bs.getD k 0) x0).getLsbD c = true

theorem bytesCover_cons {mode : DrawVwrap} {x0 y0 row : Nat} {b : Byte} {bs : List Byte} {r : Fin 32} {c : Nat} :
    BytesCover mode x0 y0 row (b :: bs) r c ↔
      (screenRow mode y0 row = some r ∧ (spriteMask b x0).getLsbD c = true) ∨ BytesCover mode x0 y0 (row + 1) bs r c := by
  constructor
  · rintro ⟨_ | k, hk, hr, hm⟩
    · exact .inl ⟨hr, hm⟩
    · exact .inr ⟨k, by simpa using hk, by rwa [show row + 1 + k = row + (k + 1) by omega], by simpa using hm⟩
  · rintro (⟨hr, hm⟩ | ⟨k, hk, hr, hm⟩)
    · exact ⟨0, by simp, hr, hm⟩
    · exact ⟨k + 1, by simpa using hk, by rwa [show row + (k + 1) = row + 1 + k by omega], by simpa using hm⟩

theorem screenRow_some {mode : DrawVwrap} {y0 row : Nat} {r : Fin 32} :
    screenRow mode y0 row = some r ↔ ¬ (mode = .clip ∧ y0 + row > 31) ∧ r.val = (y0 + row) % 32 := by
  unfold screenRow
  split
  · next h => simp [h]
  · next h => simp only [h, not_false_eq_true, true_and, Option.some.injEq, Fin.ext_iff, eq_comm]

/-- Two sprite rows of one sprite are in different screen rows: a sprite is lower than the screen (R211). -/
theorem screenRow_inj {mode : DrawVwrap} {y0 row k : Nat} {r : Fin 32} (hk : k < 31)
    (h : screenRow mode y0 row = some r) : screenRow mode y0 (row + 1 + k) ≠ some r := by
  intro h'
  have h1 := (screenRow_some.1 h).2
  have h2 := (screenRow_some.1 h').2
  omega

/-- The rows of a sprite drawn: exactly the covered pixels are complemented. -/
theorem drawRows_pixel (mode : DrawVwrap) (x0 y0 row : Nat) (bs : List Byte) (fb : Framebuffer) (hit : Bool)
    (hlen : bs.length < 32) (r : Fin 32) (c : Nat) :
    (BytesCover mode x0 y0 row bs r c →
        ((drawRows mode x0 y0 row bs fb hit).1[r]).getLsbD c = !(fb[r].getLsbD c)) ∧
      (¬ BytesCover mode x0 y0 row bs r c →
        ((drawRows mode x0 y0 row bs fb hit).1[r]).getLsbD c = fb[r].getLsbD c) := by
  induction bs generalizing row fb hit with
  | nil => exact ⟨fun ⟨k, hk, _⟩ => absurd hk (by simp), fun _ => rfl⟩
  | cons b bs ih =>
    rw [List.length_cons] at hlen
    rw [bytesCover_cons]
    cases hs : screenRow mode y0 row with
    | none =>
      simp only [drawRows, hs]
      simpa using ih (row + 1) fb hit (by omega)
    | some r0 =>
      simp only [drawRows, hs]
      have h := ih (row + 1) (drawRow fb r0 (spriteMask b x0)).1 (hit || (drawRow fb r0 (spriteMask b x0)).2) (by omega)
      rw [drawRow_pixel] at h
      by_cases hr : r = r0
      · subst hr
        have hno : ¬ BytesCover mode x0 y0 (row + 1) bs r c := by
          rintro ⟨k, hk, hk', -⟩
          exact screenRow_inj (by omega) hs hk'
        rw [h.2 hno]
        by_cases hm : (spriteMask b x0).getLsbD c = true
        · simp [hm]
        · simp [hm, hno]
      · have hr' : ¬ (r0 = r) := fun he => hr he.symm
        simpa [hr, hr'] using h

/-- The rows of a sprite drawn: a collision is a covered pixel that was set. -/
theorem drawRows_hit (mode : DrawVwrap) (x0 y0 row : Nat) (bs : List Byte) (fb : Framebuffer) (hit : Bool)
    (hlen : bs.length < 32) :
    (drawRows mode x0 y0 row bs fb hit).2 = true ↔
      hit = true ∨ ∃ (r : Fin 32) (c : Fin 64), BytesCover mode x0 y0 row bs r c ∧ fb[r].getLsbD c = true := by
  induction bs generalizing row fb hit with
  | nil =>
    simp only [drawRows]
    exact ⟨.inl, fun h => h.elim id fun ⟨_, _, ⟨k, hk, _⟩, _⟩ => absurd hk (by simp)⟩
  | cons b bs ih =>
    rw [List.length_cons] at hlen
    simp only [bytesCover_cons]
    cases hs : screenRow mode y0 row with
    | none =>
      simp only [drawRows, hs]
      simpa using ih (row + 1) fb hit (by omega)
    | some r0 =>
      simp only [drawRows, hs]
      rw [ih _ _ _ (by omega), Bool.or_eq_true, drawRow_hit]
      constructor
      · rintro ((h | ⟨c, hm, hf⟩) | ⟨r, c, hc, hp⟩)
        · exact .inl h
        · exact .inr ⟨r0, c, .inl ⟨rfl, hm⟩, hf⟩
        · rw [drawRow_pixel] at hp
          by_cases hr : r = r0
          · obtain ⟨k, hk, hk', -⟩ := hc
            exact absurd (hr ▸ hk') (screenRow_inj (by omega) hs)
          · exact .inr ⟨r, c, .inr hc, by simpa [hr] using hp⟩
      · rintro (h | ⟨r, c, ⟨hr, hm⟩ | hc, hp⟩)
        · exact .inl (.inl h)
        · obtain rfl := Option.some.inj hr
          exact .inl (.inr ⟨c, hm, hp⟩)
        · refine .inr ⟨r, c, hc, ?_⟩
          rw [drawRow_pixel]
          by_cases hr : r = r0
          · obtain ⟨k, hk, hk', -⟩ := hc
            exact absurd (hr ▸ hk') (screenRow_inj (by omega) hs)
          · simpa [hr] using hp

/-- What the bytes of a sprite cover, as `DRW` loads them, is what the spec says the sprite covers (R211). -/
theorem bytesCover_iff_spriteCovers (s : State) (x y : RegIdx) (n : Nibble) (r : Fin 32) (c : Fin 64) :
    BytesCover s.cfg.drawVwrap ((s.reg x).toNat % 64) ((s.reg y).toNat % 32) 0
        (s.load ((List.range n.toNat).map (itemCell s))) r c ↔ SpriteCovers s x y n r c := by
  have hl : ∀ k, k < n.toNat →
      (s.load ((List.range n.toNat).map (itemCell s))).getD k 0 = s.mem.read (itemCell s k) := by
    intro k hk; simp [State.load, List.getD_eq_getElem?_getD, hk]
  constructor
  · rintro ⟨k, hk, hr, hm⟩
    rw [Nat.zero_add] at hr
    have hk : k < n.toNat := by simpa [State.load] using hk
    rw [spriteMask_getLsbD _ (by omega) c.isLt, hl k hk] at hm
    obtain ⟨col, hc, h1, h2⟩ := hm
    exact ⟨k, col, hk, hc, h2, (screenRow_some.1 hr).1, (screenRow_some.1 hr).2, h1⟩
  · rintro ⟨k, col, hk, hc, h2, h3, h4, h5⟩
    refine ⟨k, by simpa [State.load] using hk, ?_, ?_⟩
    · rw [Nat.zero_add]; exact screenRow_some.2 ⟨h3, h4⟩
    · rw [spriteMask_getLsbD _ (by omega) c.isLt, hl k hk]
      exact ⟨col, hc, h5, h2⟩

end Sys2Proof.Machine
end

