-- ==== Sys2Proof/Laws/PerInstr.lean ====
section
/-! SUPPORT. The statement made per instruction: the word encoded for it has its row's literal bits (30_encoding.md R75). -/

namespace Sys2Proof.Laws.EncodeRow

/-- `word & mask = match`, for the row of the instruction (R75). -/
def Statement (i : Instr) : Prop := encode i &&& i.opRow.mask = i.opRow.value

theorem and_formatNNN (k k' : BitVec 4) (a a' : Addr12) :
    formatNNN k a &&& formatNNN k' a' = formatNNN (k &&& k') (a &&& a') := BitVec.and_append

theorem and_formatXNN (k k' : BitVec 4) (x x' : RegIdx) (b b' : Byte) :
    formatXNN k x b &&& formatXNN k' x' b' = formatXNN (k &&& k') (x &&& x') (b &&& b') :=
  BitVec.and_append.trans (congrArg (· ++ (b &&& b')) BitVec.and_append)

theorem and_formatXYN (k k' : BitVec 4) (x x' y y' : RegIdx) (n n' : Nibble) :
    formatXYN k x y n &&& formatXYN k' x' y' n' = formatXYN (k &&& k') (x &&& x') (y &&& y') (n &&& n') :=
  BitVec.and_append.trans (congrArg (· ++ (n &&& n'))
    (BitVec.and_append.trans (congrArg (· ++ (y &&& y')) BitVec.and_append)))

/-- The top nibble is literal, the rest is fields: `kNNN`. -/
theorem nnn_row (k : BitVec 4) (a : Addr12) : formatNNN k a &&& 0xF000#16 = formatNNN k 0 := by
  rw [show 0xF000#16 = formatNNN 0xF#4 0 from rfl, and_formatNNN]
  simp [show k &&& 15#4 = k from BitVec.and_allOnes]

/-- The top nibble is literal, the rest is fields: `kXNN`. -/
theorem xnn_row (k : BitVec 4) (x : RegIdx) (b : Byte) : formatXNN k x b &&& 0xF000#16 = formatXNN k 0 0 := by
  rw [show 0xF000#16 = formatXNN 0xF#4 0 0 from rfl, and_formatXNN]
  simp [show k &&& 15#4 = k from BitVec.and_allOnes]

/-- The top nibble is literal, the rest is fields: `kXYN`. -/
theorem xyn_row (k : BitVec 4) (x y : RegIdx) (n : Nibble) : formatXYN k x y n &&& 0xF000#16 = formatXYN k 0 0 0 := by
  rw [show 0xF000#16 = formatXYN 0xF#4 0 0 0 from rfl, and_formatXYN]
  simp [show k &&& 15#4 = k from BitVec.and_allOnes]

/-- The top and the low nibble are literal: `kXYm`. -/
theorem xy_row (k : BitVec 4) (x y : RegIdx) (m : Nibble) : formatXYN k x y m &&& 0xF00F#16 = formatXYN k 0 0 m := by
  rw [show 0xF00F#16 = formatXYN 0xF#4 0 0 0xF#4 from rfl, and_formatXYN]
  simp [show k &&& 15#4 = k from BitVec.and_allOnes, show m &&& 15#4 = m from BitVec.and_allOnes]

/-- The top nibble and the low byte are literal: `kXmm`. -/
theorem x_row (k : BitVec 4) (x : RegIdx) (b : Byte) : formatXNN k x b &&& 0xF0FF#16 = formatXNN k 0 b := by
  rw [show 0xF0FF#16 = formatXNN 0xF#4 0 0xFF#8 from rfl, and_formatXNN]
  simp [show k &&& 15#4 = k from BitVec.and_allOnes, show b &&& 255#8 = b from BitVec.and_allOnes]

theorem cls : Statement .cls := rfl
theorem ret : Statement .ret := rfl
theorem sys (nnn : Addr12) : Statement (.sys nnn) := nnn_row _ nnn
theorem jp (nnn : Addr12) : Statement (.jp nnn) := nnn_row _ nnn
theorem call (nnn : Addr12) : Statement (.call nnn) := nnn_row _ nnn
theorem seByte (x : RegIdx) (nn : Byte) : Statement (.seByte x nn) := xnn_row _ x nn
theorem sneByte (x : RegIdx) (nn : Byte) : Statement (.sneByte x nn) := xnn_row _ x nn
theorem seReg (x : RegIdx) (y : RegIdx) : Statement (.seReg x y) := xy_row _ x y _
theorem ldByte (x : RegIdx) (nn : Byte) : Statement (.ldByte x nn) := xnn_row _ x nn
theorem addByte (x : RegIdx) (nn : Byte) : Statement (.addByte x nn) := xnn_row _ x nn
theorem ldReg (x : RegIdx) (y : RegIdx) : Statement (.ldReg x y) := xy_row _ x y _
theorem orReg (x : RegIdx) (y : RegIdx) : Statement (.orReg x y) := xy_row _ x y _
theorem andReg (x : RegIdx) (y : RegIdx) : Statement (.andReg x y) := xy_row _ x y _
theorem xorReg (x : RegIdx) (y : RegIdx) : Statement (.xorReg x y) := xy_row _ x y _
theorem addReg (x : RegIdx) (y : RegIdx) : Statement (.addReg x y) := xy_row _ x y _
theorem subReg (x : RegIdx) (y : RegIdx) : Statement (.subReg x y) := xy_row _ x y _
theorem shr (x : RegIdx) (y : RegIdx) : Statement (.shr x y) := xy_row _ x y _
theorem subnReg (x : RegIdx) (y : RegIdx) : Statement (.subnReg x y) := xy_row _ x y _
theorem shl (x : RegIdx) (y : RegIdx) : Statement (.shl x y) := xy_row _ x y _
theorem sneReg (x : RegIdx) (y : RegIdx) : Statement (.sneReg x y) := xy_row _ x y _
theorem ldI (nnn : Addr12) : Statement (.ldI nnn) := nnn_row _ nnn
theorem jpV0 (nnn : Addr12) : Statement (.jpV0 nnn) := nnn_row _ nnn
theorem rnd (x : RegIdx) (nn : Byte) : Statement (.rnd x nn) := xnn_row _ x nn
theorem drw (x : RegIdx) (y : RegIdx) (n : Nibble) : Statement (.drw x y n) := xyn_row _ x y n
theorem skp (x : RegIdx) : Statement (.skp x) := x_row _ x _
theorem sknp (x : RegIdx) : Statement (.sknp x) := x_row _ x _
theorem ldVxDt (x : RegIdx) : Statement (.ldVxDt x) := x_row _ x _
theorem ldVxK (x : RegIdx) : Statement (.ldVxK x) := x_row _ x _
theorem ldDtVx (x : RegIdx) : Statement (.ldDtVx x) := x_row _ x _
theorem ldStVx (x : RegIdx) : Statement (.ldStVx x) := x_row _ x _
theorem addI (x : RegIdx) : Statement (.addI x) := x_row _ x _
theorem ldF (x : RegIdx) : Statement (.ldF x) := x_row _ x _
theorem ldB (x : RegIdx) : Statement (.ldB x) := x_row _ x _
theorem ldMemVx (x : RegIdx) : Statement (.ldMemVx x) := x_row _ x _
theorem ldVxMem (x : RegIdx) : Statement (.ldVxMem x) := x_row _ x _

end Sys2Proof.Laws.EncodeRow
end

