-- ==== Sys2Proof/Machine/Assembly.lean ====
section
/-! DEFINITION. The assembly spelling of an instruction and the data directive (30_encoding.md R75, R81, R82; D27, log 50). No step reads it. -/

namespace Sys2Proof.Machine

/-- One hexadecimal digit. -/
def hexDigit (d : BitVec 4) : Char := Nat.digitChar d.toNat |>.toUpper

/-- The low `n` hexadecimal digits of a number, most significant first. -/
def hexDigits : Nat → Nat → List Char
  | 0, _ => []
  | n + 1, v => hexDigits n (v / 16) ++ [hexDigit (BitVec.ofNat 4 v)]

/-- A number "in hexadecimal with `0x`" (R81), of `n` digits. -/
def hexLit (n v : Nat) : String := "0x" ++ String.ofList (hexDigits n v)

/-- "`Vx` and `Vy` are written `V0` to `VF`" (R81). -/
def regName (x : RegIdx) : String := "V" ++ String.ofList [hexDigit x]

/-- `MNEMONIC operand, operand` (R81). -/
def asmLine (mnemonic : String) (operands : List String) : String :=
  match operands with
  | [] => mnemonic
  | _ => mnemonic ++ " " ++ String.intercalate ", " operands

/-- The spelling of R75's third column, the operand that may be omitted written out. -/
def assembly : Instr → String
  | .cls => asmLine "CLS" []
  | .ret => asmLine "RET" []
  | .sys nnn => asmLine "SYS" [hexLit 3 nnn.toNat]
  | .jp nnn => asmLine "JP" [hexLit 3 nnn.toNat]
  | .call nnn => asmLine "CALL" [hexLit 3 nnn.toNat]
  | .seByte x nn => asmLine "SE" [regName x, hexLit 2 nn.toNat]
  | .sneByte x nn => asmLine "SNE" [regName x, hexLit 2 nn.toNat]
  | .seReg x y => asmLine "SE" [regName x, regName y]
  | .ldByte x nn => asmLine "LD" [regName x, hexLit 2 nn.toNat]
  | .addByte x nn => asmLine "ADD" [regName x, hexLit 2 nn.toNat]
  | .ldReg x y => asmLine "LD" [regName x, regName y]
  | .orReg x y => asmLine "OR" [regName x, regName y]
  | .andReg x y => asmLine "AND" [regName x, regName y]
  | .xorReg x y => asmLine "XOR" [regName x, regName y]
  | .addReg x y => asmLine "ADD" [regName x, regName y]
  | .subReg x y => asmLine "SUB" [regName x, regName y]
  | .shr x y => asmLine "SHR" [regName x, regName y]
  | .subnReg x y => asmLine "SUBN" [regName x, regName y]
  | .shl x y => asmLine "SHL" [regName x, regName y]
  | .sneReg x y => asmLine "SNE" [regName x, regName y]
  | .ldI nnn => asmLine "LD" ["I", hexLit 3 nnn.toNat]
  | .jpV0 nnn => asmLine "JP" ["V0", hexLit 3 nnn.toNat]
  | .rnd x nn => asmLine "RND" [regName x, hexLit 2 nn.toNat]
  | .drw x y n => asmLine "DRW" [regName x, regName y, hexLit 1 n.toNat]
  | .skp x => asmLine "SKP" [regName x]
  | .sknp x => asmLine "SKNP" [regName x]
  | .ldVxDt x => asmLine "LD" [regName x, "DT"]
  | .ldVxK x => asmLine "LD" [regName x, "K"]
  | .ldDtVx x => asmLine "LD" ["DT", regName x]
  | .ldStVx x => asmLine "LD" ["ST", regName x]
  | .addI x => asmLine "ADD" ["I", regName x]
  | .ldF x => asmLine "LD" ["F", regName x]
  | .ldB x => asmLine "LD" ["B", regName x]
  | .ldMemVx x => asmLine "LD" ["[I]", regName x]
  | .ldVxMem x => asmLine "LD" [regName x, "[I]"]

/-- The directive `DB byte, ...` (R82). -/
def dataDirective (bytes : List Byte) : String := asmLine "DB" (bytes.map fun b => hexLit 2 b.toNat)

end Sys2Proof.Machine
end

