-- ==== Sys2Proof/Tests/Slice0.lean ====
section
/-! SUPPORT. Tests: expected results are the spec's (95_test_vectors.md, 30_encoding.md section 7); and, for every statement with hypotheses, a concrete state and operands that meet them. -/

namespace Sys2Proof.Tests

open Sys2Proof.Machine

/-! ### Well-formedness: the two words that are no `SYS` are refused, their neighbours are not (R77) -/

theorem test_wf_refuses_sys_0E0 : Instr.wf (.sys 0x0E0) = false := by decide
theorem test_wf_refuses_sys_0EE : Instr.wf (.sys 0x0EE) = false := by decide
theorem test_wf_accepts_sys_neighbours : Instr.wf (.sys 0x0E1) = true ∧ Instr.wf (.sys 0x0EF) = true := by decide

/-! ### Decoding: every constructor by a word written out from R75 (95_test_vectors.md section 2.1) -/

theorem test_decode_cls : decode 0x00E0 = .instr .cls := by decide
theorem test_decode_ret : decode 0x00EE = .instr .ret := by decide
theorem test_decode_sys : decode 0x0123 = .instr (.sys 0x123) := by decide
theorem test_decode_jp : decode 0x1ABC = .instr (.jp 0xABC) := by decide
theorem test_decode_call : decode 0x2300 = .instr (.call 0x300) := by decide
theorem test_decode_seByte : decode 0x3010 = .instr (.seByte 0x0 0x10) := by decide
theorem test_decode_sneByte : decode 0x4F00 = .instr (.sneByte 0xF 0x00) := by decide
theorem test_decode_seReg : decode 0x5120 = .instr (.seReg 0x1 0x2) := by decide
theorem test_decode_ldByte : decode 0x6A2B = .instr (.ldByte 0xA 0x2B) := by decide
theorem test_decode_addByte : decode 0x7F01 = .instr (.addByte 0xF 0x01) := by decide
theorem test_decode_ldReg : decode 0x8AB0 = .instr (.ldReg 0xA 0xB) := by decide
theorem test_decode_orReg : decode 0x8AB1 = .instr (.orReg 0xA 0xB) := by decide
theorem test_decode_andReg : decode 0x8AB2 = .instr (.andReg 0xA 0xB) := by decide
theorem test_decode_xorReg : decode 0x8AB3 = .instr (.xorReg 0xA 0xB) := by decide
theorem test_decode_addReg : decode 0x8AB4 = .instr (.addReg 0xA 0xB) := by decide
theorem test_decode_subReg : decode 0x8AB5 = .instr (.subReg 0xA 0xB) := by decide
theorem test_decode_shr : decode 0x8AB6 = .instr (.shr 0xA 0xB) := by decide
theorem test_decode_subnReg : decode 0x8AB7 = .instr (.subnReg 0xA 0xB) := by decide
theorem test_decode_shl : decode 0x812E = .instr (.shl 0x1 0x2) := by decide
theorem test_decode_sneReg : decode 0x9120 = .instr (.sneReg 0x1 0x2) := by decide
theorem test_decode_ldI : decode 0xA2F0 = .instr (.ldI 0x2F0) := by decide
theorem test_decode_jpV0 : decode 0xB300 = .instr (.jpV0 0x300) := by decide
theorem test_decode_rnd : decode 0xC10F = .instr (.rnd 0x1 0x0F) := by decide
theorem test_decode_drw : decode 0xD125 = .instr (.drw 0x1 0x2 0x5) := by decide
theorem test_decode_skp : decode 0xE19E = .instr (.skp 0x1) := by decide
theorem test_decode_sknp : decode 0xE1A1 = .instr (.sknp 0x1) := by decide
theorem test_decode_ldVxDt : decode 0xF107 = .instr (.ldVxDt 0x1) := by decide
theorem test_decode_ldVxK : decode 0xF10A = .instr (.ldVxK 0x1) := by decide
theorem test_decode_ldDtVx : decode 0xF115 = .instr (.ldDtVx 0x1) := by decide
theorem test_decode_ldStVx : decode 0xF118 = .instr (.ldStVx 0x1) := by decide
theorem test_decode_addI : decode 0xF11E = .instr (.addI 0x1) := by decide
theorem test_decode_ldF : decode 0xF129 = .instr (.ldF 0x1) := by decide
theorem test_decode_ldB : decode 0xF133 = .instr (.ldB 0x1) := by decide
theorem test_decode_ldMemVx : decode 0xF155 = .instr (.ldMemVx 0x1) := by decide
theorem test_decode_ldVxMem : decode 0xF165 = .instr (.ldVxMem 0x1) := by decide

theorem test_decode_unknown_5_8_9 :
    decode 0x5121 = .unknown 0x5121 ∧ decode 0x8128 = .unknown 0x8128 ∧ decode 0x812F = .unknown 0x812F ∧
      decode 0x9121 = .unknown 0x9121 := by decide
theorem test_decode_unknown_E_F :
    decode 0xE19F = .unknown 0xE19F ∧ decode 0xE000 = .unknown 0xE000 ∧ decode 0xF100 = .unknown 0xF100 ∧
      decode 0xF175 = .unknown 0xF175 ∧ decode 0xF185 = .unknown 0xF185 ∧ decode 0xF1FF = .unknown 0xF1FF := by decide
theorem test_decodeTableWord : decodeTableWord 16 0x8AB4 = some (.addReg 0xA 0xB) := by decide
theorem test_encode : encode (.drw 0x1 0x2 0x5) = 0xD125 ∧ encode (.ldMemVx 0xF) = 0xFF55 := by decide

/-! ### Assembly spelling (95_test_vectors.md section 3, programs P1, P2 and P4) -/

theorem test_assembly_P1 : assembly (.ldByte 0x1 0x0A) = "LD V1, 0x0A" ∧ assembly (.jp 0x204) = "JP 0x204" := by decide
theorem test_assembly_P2 : assembly (.ldVxMem 0x2) = "LD V2, [I]" ∧ assembly .ret = "RET" := by decide
theorem test_assembly_P4 : assembly (.ldVxK 0x3) = "LD V3, K" ∧ assembly (.addReg 0xA 0xB) = "ADD VA, VB" := by decide

/-! ### Small states -/

/-- A next state with the property. -/
def nextHas (o : Result State) (p : State → Bool) : Bool :=
  match o with
  | .next t => p t
  | .fault _ => false
  | .refused _ => false

/-- The reset state with the word at 0x200 and one `Cycle(0, 0)` queued: the vectors' start state. -/
def start (w : Nat) : State := State.reset.withFetchWord 16 w

/-- The step of a start state ends in a next state with the property. -/
def runs (s : State) (p : State → Bool) : Bool := nextHas (step s) p

/-- The start state with another `keys_in` and `rnd`. -/
def startWith (w : Nat) (keysIn : Word) (rnd : Byte) : State := { start w with inputs := [.cycle keysIn rnd] }

/-- `V0`, `V1` and `VF` set. -/
def State3 (s : State) (v0 v1 flag : Byte) : State := ((s.setReg 0x0 v0).setReg 0x1 v1).setReg 0xF flag

/-- The state with another configuration. -/
def lenient (s : State) : State := { s with cfg := { s.cfg with unknownPolicy := .lenient } }

/-- `OOB_POLICY = wrap`. -/
def wrapping (s : State) : State := { s with cfg := { s.cfg with oobPolicy := .wrap } }

/-! ### One step each (95_test_vectors.md sections 1 and 2) -/

-- 2.7: `00E0` with FB(3,3) set.
theorem test_cls : runs ((start 0x00E0).setFb (clearScreen.set 3 8)) (fun t => !t.pixel 3 3 && t.pc == 0x0202) = true := by
  decide
-- 2.3
theorem test_ret_odd_target :
    runs { start 0x00EE with sp := 16, stack := (Vector.replicate 16 0).set 15 0x0ABD }
      (fun t => t.sp == 15 && t.pc == 0x0ABD) = true := by decide
theorem test_ret_underflow : runs (start 0x00EE) (fun t => t.halt == some .stackUnderflow && t.pc == 0x0200) = true := by
  decide
theorem test_sys_strict : runs (start 0x0123) (fun t => t.halt == some (.unknownOpcode 0x0123) && t.pc == 0x0200) = true := by
  decide
theorem test_sys_lenient :
    runs (lenient (start 0x0123)) (fun t => t.halt == none && t.pc == 0x0202 && t.diagnostics == [⟨0x0200, 0x0123⟩]) =
      true := by decide
theorem test_unknown_strict : runs (start 0x8128) (fun t => t.halt == some (.unknownOpcode 0x8128)) = true := by decide
theorem test_jp : runs (start 0x1ABC) (fun t => t.pc == 0x0ABC) = true := by decide
theorem test_call_deepest :
    runs { start 0x2300 with sp := 15 } (fun t => t.stack[15] == 0x0202 && t.sp == 16 && t.pc == 0x0300) = true := by decide
theorem test_call_overflow :
    runs { start 0x2300 with sp := 16 } (fun t => t.halt == some .stackOverflow && t.sp == 16 && t.pc == 0x0200) = true := by
  decide
theorem test_jpV0_uses_V0 :
    runs (((start 0xB2FE).setReg 0x0 0x02).setReg 0x2 0x10) (fun t => t.pc == 0x0300) = true := by decide
theorem test_jpV0_past_memory : runs ((start 0xBFFF).setReg 0x0 0xFF) (fun t => t.pc == 0x10FE) = true := by decide
-- 2.2
theorem test_fetch_last_word :
    runs ({ (start 0x0000).store [0xFFE, 0xFFF] [0x6A, 0x2B] with pc := 0x0FFE })
      (fun t => t.reg 0xA == 0x2B && t.pc == 0x1000) = true := by decide
theorem test_fetch_out_of_range :
    runs { start 0x0000 with pc := 0x0FFF } (fun t => t.halt == some (.memoryOutOfRange 0x0FFF) && t.pc == 0x0FFF) = true := by
  decide
theorem test_fetch_wrap :
    runs (wrapping { (start 0x0000).store [0xFFF, 0x000] [0x6A, 0x2B] with pc := 0x0FFF })
      (fun t => t.reg 0xA == 0x2B && t.pc == 0x1001) = true := by decide
-- 2.4
theorem test_seByte_taken : runs ((start 0x3010).setReg 0x0 0x10) (fun t => t.pc == 0x0204) = true := by decide
theorem test_seByte_not_taken : runs ((start 0x3010).setReg 0x0 0x11) (fun t => t.pc == 0x0202) = true := by decide
theorem test_sneByte_taken : runs ((start 0x4010).setReg 0x0 0x11) (fun t => t.pc == 0x0204) = true := by decide
theorem test_sneByte_not_taken : runs ((start 0x4010).setReg 0x0 0x10) (fun t => t.pc == 0x0202) = true := by decide
theorem test_seReg_same : runs ((start 0x5330).setReg 0x3 0x09) (fun t => t.pc == 0x0204) = true := by decide
theorem test_seReg_not_taken :
    runs (((start 0x5120).setReg 0x1 0x07).setReg 0x2 0x08) (fun t => t.pc == 0x0202) = true := by decide
theorem test_sneReg_taken :
    runs (((start 0x9120).setReg 0x1 0x07).setReg 0x2 0x08) (fun t => t.pc == 0x0204) = true := by decide
theorem test_sneReg_same : runs ((start 0x9330).setReg 0x3 0x09) (fun t => t.pc == 0x0202) = true := by decide
theorem test_skp_pressed :
    runs ((startWith 0xE19E 0x0020 0).setReg 0x1 0x05) (fun t => t.pc == 0x0204 && t.keys == 0x0020) = true := by decide
theorem test_skp_above_F : runs ((startWith 0xE19E 0xFFFF 0).setReg 0x1 0x15) (fun t => t.pc == 0x0202) = true := by decide
theorem test_sknp_pressed : runs ((startWith 0xE1A1 0x0020 0).setReg 0x1 0x05) (fun t => t.pc == 0x0202) = true := by decide
theorem test_sknp_released : runs ((startWith 0xE1A1 0xFFDF 0).setReg 0x1 0x05) (fun t => t.pc == 0x0204) = true := by decide
-- 2.5
theorem test_ldByte : runs (start 0x6A2B) (fun t => t.reg 0xA == 0x2B && t.pc == 0x0202) = true := by decide
theorem test_addByte_wraps :
    runs (State3 (start 0x7002) 0xFF 0 0x55) (fun t => t.reg 0x0 == 0x01 && t.reg 0xF == 0x55 && t.pc == 0x0202) = true := by
  decide
theorem test_addByte_vf : runs ((start 0x7F01).setReg 0xF 0xFF) (fun t => t.reg 0xF == 0x00) = true := by decide
theorem test_ldReg : runs ((start 0x8010).setReg 0x1 0x5A) (fun t => t.reg 0x0 == 0x5A && t.reg 0x1 == 0x5A) = true := by
  decide
theorem test_orReg : runs (State3 (start 0x8011) 0xF0 0x0F 0x77) (fun t => t.reg 0x0 == 0xFF && t.reg 0xF == 0x77) = true := by
  decide
theorem test_andReg : runs (State3 (start 0x8012) 0xF3 0x3F 0x77) (fun t => t.reg 0x0 == 0x33 && t.reg 0xF == 0x77) = true := by
  decide
theorem test_xorReg : runs (State3 (start 0x8013) 0xFF 0x0F 0x77) (fun t => t.reg 0x0 == 0xF0 && t.reg 0xF == 0x77) = true := by
  decide
theorem test_addReg_carry : runs (State3 (start 0x8014) 0xFF 0x01 0) (fun t => t.reg 0x0 == 0 && t.reg 0xF == 1) = true := by
  decide
theorem test_addReg_vf_keeps_flag : runs (State3 (start 0x8F14) 0 0x20 0xF0) (fun t => t.reg 0xF == 1) = true := by decide
theorem test_subReg_borrow : runs (State3 (start 0x8015) 0x03 0x05 1) (fun t => t.reg 0x0 == 0xFE && t.reg 0xF == 0) = true := by
  decide
theorem test_subReg_equal : runs (State3 (start 0x8015) 0x07 0x07 0) (fun t => t.reg 0x0 == 0 && t.reg 0xF == 1) = true := by
  decide
theorem test_subnReg : runs (State3 (start 0x8017) 0x03 0x05 0) (fun t => t.reg 0x0 == 0x02 && t.reg 0xF == 1) = true := by
  decide
theorem test_subnReg_vf : runs ((start 0x8F17).setReg 0xF 0x01) (fun t => t.reg 0xF == 0) = true := by decide
theorem test_shr_vx :
    runs (State3 (start 0x8016) 0x05 0xF0 0) (fun t => t.reg 0x0 == 0x02 && t.reg 0x1 == 0xF0 && t.reg 0xF == 1) = true := by
  decide
theorem test_shr_vy :
    runs { State3 (start 0x8016) 0x05 0xF0 1 with cfg := { defaultConfig with shiftSource := .vy } }
      (fun t => t.reg 0x0 == 0x78 && t.reg 0xF == 0) = true := by decide
theorem test_shl_vx : runs (State3 (start 0x801E) 0x81 0x01 0) (fun t => t.reg 0x0 == 0x02 && t.reg 0xF == 1) = true := by
  decide
theorem test_shl_vf : runs ((start 0x8F1E).setReg 0xF 0x40) (fun t => t.reg 0xF == 0) = true := by decide
theorem test_rnd : runs ((startWith 0xC00F 0 0xA7).setReg 0x0 0x11) (fun t => t.reg 0x0 == 0x07) = true := by decide
-- 2.6
theorem test_ldI : runs (start 0xA2F0) (fun t => t.i == 0x02F0 && t.pc == 0x0202) = true := by decide
theorem test_addI_past_memory :
    runs ((State3 (start 0xF11E) 0 0x01 0x33).setI 0x0FFF) (fun t => t.i == 0x1000 && t.reg 0xF == 0x33) = true := by decide
theorem test_addI_wraps : runs (((start 0xF11E).setReg 0x1 0xFF).setI 0xFFFF) (fun t => t.i == 0x00FE) = true := by decide
theorem test_ldF_multiply : runs ((start 0xF129).setReg 0x1 0x1A) (fun t => t.i == 0x0082) = true := by decide
theorem test_ldF_mask :
    runs { (start 0xF129).setReg 0x1 0x1A with cfg := { defaultConfig with fx29Mode := .mask } } (fun t => t.i == 0x0032) =
      true := by decide
theorem test_ldB :
    runs (((start 0xF133).setReg 0x1 0x9C).setI 0x0300)
      (fun t => t.load [0x300, 0x301, 0x302] == [0x01, 0x05, 0x06] && t.i == 0x0300) = true := by decide
theorem test_ldB_out_of_range :
    runs (((start 0xF133).setReg 0x1 0x7B).setI 0x0FFE)
      (fun t => t.halt == some (.memoryOutOfRange 0x1000) && t.load [0xFFE, 0xFFF] == [0, 0] && t.pc == 0x0200) = true := by
  decide
theorem test_ldMemVx :
    runs ((((State3 (start 0xF255) 1 2 0).setReg 0x2 3).setReg 0x3 4).setI 0x0400)
      (fun t => t.load [0x400, 0x401, 0x402, 0x403] == [1, 2, 3, 0] && t.i == 0x0400) = true := by decide
theorem test_ldMemVx_own_byte :
    runs (((start 0xF055).setReg 0x0 0x12).setI 0x0200) (fun t => t.load [0x200, 0x201] == [0x12, 0x55]) = true := by decide
theorem test_ldVxMem_font :
    runs (start 0xFF65)
      (fun t => t.v.toList ==
        [0xF0, 0x90, 0x90, 0x90, 0xF0, 0x20, 0x60, 0x20, 0x20, 0x70, 0xF0, 0x10, 0xF0, 0x80, 0xF0, 0xF0]) = true := by
  decide
theorem test_ldVxMem_out_of_range :
    runs ((State3 (start 0xF165) 9 9 0).setI 0x0FFF)
      (fun t => t.halt == some (.memoryOutOfRange 0x1000) && t.reg 0x0 == 9 && t.reg 0x1 == 9) = true := by decide
-- 2.7: both from the old VF; then a wrap of the columns (bit 7 leftmost).
theorem test_drw_vf_coordinates :
    runs (((start 0xDFF1).store [0x300] [0xC0]).setReg 0xF 3 |>.setI 0x0300)
      (fun t => t.pixel 3 3 && t.pixel 3 4 && !t.pixel 3 5 && !t.pixel 0 0 && t.reg 0xF == 0) = true := by decide
theorem test_drw_wrap_collision :
    runs ((State3 ((start 0xD011).store [0x300] [0x81]) 0x7C 0x21 0).setI 0x0300 |>.setFb (clearScreen.set 1 8))
      (fun t => t.pixel 1 60 && !t.pixel 1 3 && t.reg 0xF == 1) = true := by decide
-- 2.8
theorem test_ldVxDt : runs ((start 0xF107).setDt 0x3C) (fun t => t.reg 0x1 == 0x3C && t.dt == 0x3C) = true := by decide
theorem test_ldVxK : runs (startWith 0xF30A 0x0080 0) (fun t => t.wait == some 3 && t.pc == 0x0200 && t.keys == 0x0080) = true := by
  decide
theorem test_ldDtVx : runs ((start 0xF115).setReg 0x1 0x3C) (fun t => t.dt == 0x3C && t.st == 0) = true := by decide
theorem test_ldStVx : runs ((start 0xF118).setReg 0x1 0x02) (fun t => t.st == 0x02 && t.tone) = true := by decide
theorem test_wake_lowest_key :
    runs { startWith 0xF30A 0x0A04 0 with wait := some 3 } (fun t => t.reg 0x3 == 2 && t.pc == 0x0202 && t.wait == none) =
      true := by decide
theorem test_held_key_does_not_wake :
    runs { startWith 0xF30A 0x0080 0 with wait := some 3, keys := 0x0080 } (fun t => t.wait == some 3 && t.pc == 0x0200) =
      true := by decide
theorem test_tick :
    runs { State.reset with inputs := [.tick], dt := 0xFF, st := 0x01 } (fun t => t.dt == 0xFE && t.st == 0 && !t.tone) =
      true := by decide
theorem test_tick_stops_at_zero : runs { State.reset with inputs := [.tick] } (fun t => t.dt == 0 && t.st == 0) = true := by
  decide
-- 2.9
theorem test_reset_loads :
    runs { State.reset with inputs := [.reset [0x12, 0x00]], halt := some .stackOverflow, pc := 0x0400 }
      (fun t => t.load [0x000, 0x04F, 0x050, 0x200, 0x201, 0x202] == [0xF0, 0x80, 0, 0x12, 0, 0] && t.pc == 0x0200 &&
        t.halt == none) = true := by decide
theorem test_reset_empty : step { State.reset with inputs := [.reset []] } = .fault (.loadError .empty) := by rfl

/-! ### Witnesses: the hypotheses of each statement are met -/

/-- A next state named by running `exec`. -/
def after (o : Result State) : State :=
  match o with
  | .next t => t
  | .fault _ => State.reset
  | .refused _ => State.reset

theorem witness_DecodeEncodeRoundTrip :
    Instr.wf (.sys 0x0E1) = true ∧ Instr.wf (.sys 0xFFF) = true ∧ Instr.wf (.drw 0xF 0xF 0xF) = true := by decide
theorem witness_EncodeDecodeRoundTrip :
    decode 0x0000 = .instr (.sys 0x000) ∧ decode 0xFF65 = .instr (.ldVxMem 0xF) := by decide
theorem witness_DecodeAgreesWithOpcodeMap : decode 0x00E0 = .instr .cls ∧ decode 0xFFFF = .unknown 0xFFFF := by decide
theorem witness_OpcodeRowsDisjoint :
    (opcodeRows[8]?.map fun r => r.matchesWord 0x6A2B) = some true ∧ (8 : Fin 35).val ≠ 2 ∧
      (opcodeRows[2]?.map fun r => r.matchesWord 0x0123) = some true ∧
      (opcodeRows[2]?.map fun r => r.matchesWord 0x00E0) = some false := by decide
theorem witness_UnknownWordsExactly :
    decode 0x5001 = .unknown 0x5001 ∧ decode 0x800F = .unknown 0x800F ∧ decode 0x9001 = .unknown 0x9001 ∧
      decode 0xE09F = .unknown 0xE09F ∧ decode 0xF066 = .unknown 0xF066 := by decide
theorem witness_FetchWordOrRangeFault :
    (start 0x6A2B).pc.toNat ≤ 0xFFE ∧
      ({ start 0x6A2B with pc := 0x0FFE } : State).pc.toNat ≤ 0xFFE ∧
      ({ start 0x6A2B with pc := 0x0FFF } : State).cfg.oobPolicy = .fault ∧
      0xFFE < ({ start 0x6A2B with pc := 0x0FFF } : State).pc.toNat ∧
      (wrapping { start 0x6A2B with pc := 0x0FFF }).cfg.oobPolicy = .wrap := by decide
theorem witness_StepRunsDecodedInstruction :
    ((start 0x7002).inputs = [.cycle 0 0] ∧ (start 0x7002).halt = none ∧ (start 0x7002).wait = none ∧
        decode 0x7002 = .instr (.addByte 0x0 0x02)) ∧ fetch (start 0x7002) = .ok 0x7002 ∧
      (after (exec (.addByte 0x0 0x02) (start 0x7002))).halt = none ∧
      fetch (start 0x00EE) = .ok 0x00EE ∧ (after (exec .ret (start 0x00EE))).halt = some .stackUnderflow :=
  ⟨by decide, by rfl, by decide, by rfl, by decide⟩
theorem witness_StepRaisesOnFetchOutOfRange :
    ({ start 0 with pc := 0x0FFF } : State).inputs = [.cycle 0 0] ∧ (start 0).halt = none ∧ (start 0).wait = none ∧
      (start 0).cfg.oobPolicy = .fault ∧ 0xFFE < ({ start 0 with pc := 0x0FFF } : State).pc.toNat := by decide
theorem witness_StepHandlesUnknownWord :
    ((start 0x5121).inputs = [.cycle 0 0] ∧ (start 0x5121).halt = none ∧ (start 0x5121).wait = none ∧
        decode 0x5121 = .unknown 0x5121 ∧ (start 0x5121).cfg.unknownPolicy = .strict ∧
        (lenient (start 0x5121)).inputs = [.cycle 0 0] ∧ (lenient (start 0x5121)).cfg.unknownPolicy = .lenient) ∧
      fetch (start 0x5121) = .ok 0x5121 ∧ fetch (lenient (start 0x5121)) = .ok 0x5121 :=
  ⟨by decide, by rfl, by rfl⟩
theorem witness_CyclesAndTicksAlwaysComplete :
    (start 0xFFFF).inputs = [.cycle 0 0] ∧ (∀ image, Event.cycle 0 0 ≠ .reset image) ∧
      ({ start 0 with inputs := [.tick] } : State).inputs = [.tick] ∧ ∀ image, Event.tick ≠ .reset image :=
  ⟨rfl, nofun, rfl, nofun⟩
theorem witness_FatalConditionsArePrecise :
    (start 0x00EE).inputs = [.cycle 0 0] ∧ (start 0x00EE).halt = none ∧
      step (start 0x00EE) = .next (after (step (start 0x00EE))) ∧
      (after (step (start 0x00EE))).halt = some .stackUnderflow :=
  ⟨rfl, rfl, rfl, by decide⟩
theorem witness_HaltIsAbsorbing :
    ({ start 0 with halt := some .stackOverflow, inputs := [.tick] } : State).inputs = [.tick] ∧
      ({ start 0 with halt := some .stackOverflow, inputs := [.tick] } : State).halt ≠ none ∧
      ∀ image, Event.tick ≠ .reset image := ⟨rfl, nofun, nofun⟩
theorem witness_KeysAreTheCycleSnapshot :
    (step (startWith 0x6A2B 0xFFFF 0) = .next (after (step (startWith 0x6A2B 0xFFFF 0))) ∧
        (startWith 0x6A2B 0xFFFF 0).halt = none ∧ (startWith 0x6A2B 0xFFFF 0).inputs = [.cycle 0xFFFF 0] ∧
        (after (step (startWith 0x6A2B 0xFFFF 0))).halt = none) ∧
      step { State.reset with inputs := [.tick] } = .next (after (step { State.reset with inputs := [.tick] })) :=
  ⟨⟨rfl, rfl, rfl, by decide⟩, rfl⟩
/-- No edge while key 15 is held; an edge of key 15 alone; an edge of key 0 while key 15 is held. -/
theorem witness_WaitingCycleWakesOnKeyEdge :
    (({ startWith 0xF30A 0x8000 0 with wait := some 3 } : State).inputs = [.cycle 0x8000 0] ∧
        ({ startWith 0xF30A 0x8000 0 with wait := some 3 } : State).halt = none) ∧
      (∀ k : Fin 16, (0x8000#16).getLsbD k = true → (0x8000#16).getLsbD k = true) ∧
      ((0x8000#16).getLsbD (15 : Fin 16) = true ∧ (0x0000#16).getLsbD (15 : Fin 16) = false ∧
        ∀ j : Fin 16, j < 15 → (0x8000#16).getLsbD j = true → (0x0000#16).getLsbD j = true) ∧
      ((0x8001#16).getLsbD (0 : Fin 16) = true ∧ (0x8000#16).getLsbD (0 : Fin 16) = false ∧
        ∀ j : Fin 16, j < 0 → (0x8001#16).getLsbD j = true → (0x8000#16).getLsbD j = true) := by decide
theorem witness_SysActsAsUnknown :
    State.reset.cfg.unknownPolicy = .strict ∧ (lenient State.reset).cfg.unknownPolicy = .lenient := by decide
theorem witness_RetPopsReturnAddress :
    State.reset.sp = 0 ∧ ({ State.reset with sp := 1 } : State).sp.val = (0 : Fin 16).val + 1 ∧
      ({ State.reset with sp := 16 } : State).sp.val = (15 : Fin 16).val + 1 := by decide
theorem witness_CallPushesReturnAddress :
    ({ State.reset with sp := 16 } : State).sp = 16 ∧ State.reset.sp.val = (0 : Fin 16).val ∧
      ({ State.reset with sp := 15 } : State).sp.val = (15 : Fin 16).val := by decide
theorem witness_RetResumesAfterCall :
    ({ State.reset with sp := 15 } : State).sp ≠ 16 ∧
      exec (.call 0x300) { State.reset with sp := 15 } = .next (after (exec (.call 0x300) { State.reset with sp := 15 })) :=
  ⟨by decide, rfl⟩
theorem witness_SkipsOnByteComparison : State.reset.reg 0x0 = 0x00 ∧ State.reset.reg 0x0 ≠ 0x10 := by decide
theorem witness_SkipsOnRegisterComparison :
    State.reset.reg 0x1 = State.reset.reg 0x2 ∧ (State.reset.setReg 0x1 7).reg 0x1 ≠ (State.reset.setReg 0x1 7).reg 0x2 := by
  decide
/-- Codes 0 and 0xF; code 0x10 as key 0 under `mask`, and as no key by default. -/
theorem witness_SkipsOnKeyState :
    (State.reset.reg 0x1).toNat = (0 : Fin 16).val ∧ ((State.reset.setReg 0x1 0xF).reg 0x1).toNat = (15 : Fin 16).val ∧
      (({ State.reset.setReg 0x1 0x10 with cfg := { defaultConfig with keyIndexMode := .mask } } : State).cfg.keyIndexMode =
          .mask ∧ ((State.reset.setReg 0x1 0x10).reg 0x1).toNat % 16 = (0 : Fin 16).val) ∧
      (State.reset.setReg 0x1 0x10).cfg.keyIndexMode = .neverPressed ∧
      0x0F < ((State.reset.setReg 0x1 0x10).reg 0x1).toNat := by decide
theorem witness_ShiftsSetBitOut :
    (State3 State.reset 0x05 0xF0 0).reg 0x0 =
        (if (State3 State.reset 0x05 0xF0 0).cfg.shiftSource = .vx then (State3 State.reset 0x05 0xF0 0).reg 0x0
          else (State3 State.reset 0x05 0xF0 0).reg 0x1) ∧
      ({ State3 State.reset 0x05 0xF0 0 with cfg := { defaultConfig with shiftSource := .vy } } : State).cfg.shiftSource =
        .vy ∧ (0x0#4 : RegIdx) ≠ vf := by decide
/-- The clauses on a result register other than VF, and on a third register. -/
theorem witness_AddSetsCarry_SubtractionsSetNoBorrow :
    (0x0#4 : RegIdx) ≠ vf ∧ (0xE#4 : RegIdx) ≠ 0x0 ∧ (0xE#4 : RegIdx) ≠ vf := by decide
theorem witness_AddByteWrapsAndKeepsFlag_LogicKeepsFlag_RndMasksTheRandomByte : vf ≠ (0x0#4 : RegIdx) := by decide
theorem witness_LdFComputesFontAddress :
    State.reset.cfg.fx29Mode = .multiply ∧
      ({ State.reset with cfg := { defaultConfig with fx29Mode := .mask } } : State).cfg.fx29Mode = .mask := by decide
/-- In range up to the last cell; one further, out of range; and in range again under `wrap`. -/
theorem witness_LdBStoresDecimalDigits :
    (State.reset.setI 0x0FFD).mem.wf = true ∧ InRange (State.reset.setI 0x0FFD) 3 ∧
      ¬ InRange (State.reset.setI 0x0FFE) 3 ∧ InRange (wrapping (State.reset.setI 0x0FFE)) 3 ∧
      (∀ k, k < 3 → 0x0FFC ≠ itemCell (State.reset.setI 0x0FFD) k) := by
  refine ⟨rfl, ?_, ?_, .inl rfl, ?_⟩ <;> simp only [InRange, itemCell] <;> decide
theorem witness_BlockStoreWritesRegisters :
    (State.reset.setI 0x0FF0).mem.wf = true ∧ InRange (State.reset.setI 0x0FF0) ((0xF#4 : RegIdx).toNat + 1) ∧
      ¬ InRange (State.reset.setI 0x0FF1) ((0xF#4 : RegIdx).toNat + 1) ∧ (0xF#4 : RegIdx) ≤ 0xF ∧
      (∀ k, k ≤ (0xF#4 : RegIdx).toNat → 0x0FEF ≠ itemCell (State.reset.setI 0x0FF0) k) := by
  refine ⟨rfl, ?_, ?_, by decide, ?_⟩ <;> simp only [InRange, itemCell] <;> decide
theorem witness_BlockLoadReadsRegisters :
    InRange (State.reset.setI 0x0FFF) ((0x0#4 : RegIdx).toNat + 1) ∧
      ¬ InRange (State.reset.setI 0x0FFF) ((0x1#4 : RegIdx).toNat + 1) := by
  constructor <;> simp only [InRange] <;> decide
theorem witness_StoreIsSeenByNextFetch :
    (State.reset.setI 0x0202).mem.wf = true ∧ 1 ≤ (0xF#4 : RegIdx).toNat ∧
      (State.reset.setI 0x0202).i = (State.reset.setI 0x0202).pc + 2 ∧
      (State.reset.setI 0x0202).i.toNat + (0xF#4 : RegIdx).toNat ≤ 0xFFF ∧
      exec (.ldMemVx 0xF) (State.reset.setI 0x0202) = .next (after (exec (.ldMemVx 0xF) (State.reset.setI 0x0202))) :=
  ⟨rfl, by decide, by decide, by decide, rfl⟩

/-- A screen, a sprite of one byte 0x80 at 0x300 and `V0 = V1 = 0`: it covers pixel (0, 0) alone. -/
def spriteState : State := (State.reset.store [0x300] [0x80]).setI 0x0300

theorem spriteState_covers : SpriteCovers spriteState 0x0 0x1 0x1 0 0 :=
  ⟨0, 0, by decide, by decide, by decide, by decide, by decide, by decide⟩
/-- A covered pixel and one that is not; the covered pixel set and not set; a transfer out of range. -/
theorem witness_DrwXorsSpriteAndSetsCollision :
    InRange spriteState (0x1#4 : Nibble).toNat ∧ SpriteCovers spriteState 0x0 0x1 0x1 0 0 ∧
      ¬ SpriteCovers spriteState 0x0 0x1 0x1 1 0 ∧ spriteState.pixel 0 0 = false ∧
      (spriteState.setFb (clearScreen.set 0 1)).pixel 0 0 = true ∧
      ¬ InRange (State.reset.setI 0x1000) (0x1#4 : Nibble).toNat := by
  refine ⟨.inr (.inr (by decide)), spriteState_covers, ?_, by decide, by decide, by simp only [InRange]; decide⟩
  rintro ⟨row, col, hr, -, -, -, h, -⟩
  have hrow : row = 0 := by simpa using hr
  subst hrow
  revert h
  decide
theorem witness_DrawingTwiceRestoresTheScreen :
    (0x0#4 : RegIdx) ≠ vf ∧ (0x1#4 : RegIdx) ≠ vf ∧ InRange spriteState (0x1#4 : Nibble).toNat ∧
      exec (.drw 0x0 0x1 0x1) spriteState = .next (after (exec (.drw 0x0 0x1 0x1) spriteState)) ∧
      exec (.drw 0x0 0x1 0x1) (after (exec (.drw 0x0 0x1 0x1) spriteState)) =
        .next (after (exec (.drw 0x0 0x1 0x1) (after (exec (.drw 0x0 0x1 0x1) spriteState)))) ∧
      (SpriteCovers spriteState 0x0 0x1 0x1 0 0 ∧ spriteState.pixel 0 0 = false) :=
  ⟨by decide, by decide, .inr (.inr (by decide)), rfl, rfl, spriteState_covers, by decide⟩
/-- A screen with every pixel set: the other clause of the second draw. -/
theorem witness_DrawingTwiceRestoresTheScreen_all_set :
    InRange (spriteState.setFb (Vector.replicate 32 (BitVec.allOnes 64))) (0x1#4 : Nibble).toNat ∧
      ∀ r c, SpriteCovers (spriteState.setFb (Vector.replicate 32 (BitVec.allOnes 64))) 0x0 0x1 0x1 r c →
        (spriteState.setFb (Vector.replicate 32 (BitVec.allOnes 64))).pixel r c = true :=
  ⟨.inr (.inr (by decide)), fun r c _ => by
    have hc : (BitVec.allOnes 64).getLsbD c = true := by rw [BitVec.getLsbD_allOnes]; exact decide_eq_true c.isLt
    simpa only [State.pixel, State.setFb_fb, Fin.getElem_fin, Vector.getElem_replicate] using hc⟩
theorem witness_TickDecrementsNonzeroTimers :
    ({ State.reset with inputs := [.tick] } : State).inputs = [.tick] ∧ State.reset.halt = none ∧
      ({ State.reset with inputs := [.tick], halt := some .stackOverflow } : State).halt ≠ none := ⟨rfl, rfl, nofun⟩
theorem witness_TimerIsZeroAfterItsCountOfTicks :
    ({ State.reset with inputs := [.tick, .tick, .tick] } : State).inputs = List.replicate 3 .tick ++ [] ∧
      State.reset.halt = none := ⟨rfl, rfl⟩

/-! Each part really changes under one of its writers. -/

theorem witness_part_mem : exec (.ldB 0x0) (spriteState.setReg 0x0 7) = .next (after (exec (.ldB 0x0) (spriteState.setReg 0x0 7))) ∧
    ¬ Agrees (spriteState.setReg 0x0 7) (after (exec (.ldB 0x0) (spriteState.setReg 0x0 7))) .mem :=
  ⟨rfl, fun h => absurd (h 0x300) (by decide)⟩
theorem witness_part_screen : exec (.drw 0x0 0x1 0x1) spriteState = .next (after (exec (.drw 0x0 0x1 0x1) spriteState)) ∧
    ¬ Agrees spriteState (after (exec (.drw 0x0 0x1 0x1) spriteState)) .screen :=
  ⟨rfl, fun h => absurd (h 0 0) (by decide)⟩
theorem witness_part_stack : exec (.call 0x300) State.reset = .next (after (exec (.call 0x300) State.reset)) ∧
    ¬ Agrees State.reset (after (exec (.call 0x300) State.reset)) .stack :=
  ⟨rfl, fun h => absurd h.1 (by decide)⟩
theorem witness_part_index : exec (.ldI 0x300) State.reset = .next (after (exec (.ldI 0x300) State.reset)) ∧
    ¬ Agrees State.reset (after (exec (.ldI 0x300) State.reset)) .index :=
  ⟨rfl, fun h => absurd (show (0x300 : Word) = 0 from h) (by decide)⟩
theorem witness_part_delay :
    exec (.ldDtVx 0x0) (State.reset.setReg 0x0 7) = .next (after (exec (.ldDtVx 0x0) (State.reset.setReg 0x0 7))) ∧
    ¬ Agrees (State.reset.setReg 0x0 7) (after (exec (.ldDtVx 0x0) (State.reset.setReg 0x0 7))) .delay :=
  ⟨rfl, fun h => absurd (show (7 : Byte) = 0 from h) (by decide)⟩
theorem witness_part_sound :
    exec (.ldStVx 0x0) (State.reset.setReg 0x0 7) = .next (after (exec (.ldStVx 0x0) (State.reset.setReg 0x0 7))) ∧
    ¬ Agrees (State.reset.setReg 0x0 7) (after (exec (.ldStVx 0x0) (State.reset.setReg 0x0 7))) .sound :=
  ⟨rfl, fun h => absurd (show (7 : Byte) = 0 from h) (by decide)⟩
theorem witness_part_wait : exec (.ldVxK 0x3) State.reset = .next (after (exec (.ldVxK 0x3) State.reset)) ∧
    ¬ Agrees State.reset (after (exec (.ldVxK 0x3) State.reset)) .wait := ⟨rfl, nofun⟩
theorem witness_part_diagnostics :
    exec (.sys 0x123) (lenient State.reset) = .next (after (exec (.sys 0x123) (lenient State.reset))) ∧
    ¬ Agrees (lenient State.reset) (after (exec (.sys 0x123) (lenient State.reset))) .diagnostics := ⟨rfl, nofun⟩
/-- A register as `x`; VF as a flag; V0 and VF as the ends of a block load; PC by 4; HALT. -/
theorem witness_part_regs :
    (exec (.ldByte 0x3 7) State.reset = .next (after (exec (.ldByte 0x3 7) State.reset)) ∧
        (after (exec (.ldByte 0x3 7) State.reset)).reg 0x3 ≠ State.reset.reg 0x3) ∧
      (exec (.subReg 0x0 0x1) State.reset = .next (after (exec (.subReg 0x0 0x1) State.reset)) ∧
        (after (exec (.subReg 0x0 0x1) State.reset)).reg vf ≠ State.reset.reg vf) ∧
      ((after (exec (.ldVxMem 0xF) State.reset)).reg 0x0 ≠ State.reset.reg 0x0 ∧
        (after (exec (.ldVxMem 0xF) State.reset)).reg 0xF ≠ State.reset.reg 0xF) := by
  exact ⟨⟨rfl, by decide⟩, ⟨rfl, by decide⟩, by decide, by decide⟩
theorem witness_part_pc : exec (.seByte 0x0 0) State.reset = .next (after (exec (.seByte 0x0 0) State.reset)) ∧
    ¬ Agrees State.reset (after (exec (.seByte 0x0 0) State.reset)) .pc :=
  ⟨rfl, fun h => absurd (show (0x204 : Word) = 0x200 from h) (by decide)⟩
theorem witness_part_halt : exec .ret State.reset = .next (State.reset.raise .stackUnderflow) ∧
    ¬ Agrees State.reset (State.reset.raise .stackUnderflow) .halt := ⟨rfl, nofun⟩
theorem witness_OnlyTheListedInstructionsRaise :
    exec .ret State.reset = .next (State.reset.raise .stackUnderflow) ∧ State.reset.halt = none ∧
      (State.reset.raise .stackUnderflow).halt ≠ none := ⟨rfl, rfl, nofun⟩

/-- The start state of one writer, after its step. -/
def wrote (w : Nat) : State := after (step (State3 (start w) 7 0 0))

theorem wrote_step (w : Nat) (h : runs (State3 (start w) 7 0 0) (fun _ => true) = true) :
    step (State3 (start w) 7 0 0) = .next (wrote w) := by
  unfold wrote
  unfold runs at h
  revert h
  cases step (State3 (start w) 7 0 0) <;> simp [nextHas, after]
theorem witness_CycleWritersAreTheDecodedInstruction :
    (State3 (start 0xF033) 7 0 0).inputs = [.cycle 0 0] ∧ step (State3 (start 0xF033) 7 0 0) = .next (wrote 0xF033) ∧
      ¬ Agrees (State3 (start 0xF033) 7 0 0) (wrote 0xF033) .mem ∧
      step (State3 (start 0xD005) 7 0 0) = .next (wrote 0xD005) ∧
      ¬ Agrees (State3 (start 0xD005) 7 0 0) (wrote 0xD005) .screen ∧
      step (State3 (start 0xF015) 7 0 0) = .next (wrote 0xF015) ∧
      ¬ Agrees (State3 (start 0xF015) 7 0 0) (wrote 0xF015) .delay ∧
      step (State3 (start 0xF018) 7 0 0) = .next (wrote 0xF018) ∧
      ¬ Agrees (State3 (start 0xF018) 7 0 0) (wrote 0xF018) .sound :=
  ⟨rfl, wrote_step _ (by decide), fun h => absurd (h 0) (by decide), wrote_step _ (by decide),
    fun h => absurd (h 7 7) (by decide), wrote_step _ (by decide),
    fun h => absurd (show (wrote 0xF015).dt = 0 from h) (by decide), wrote_step _ (by decide),
    fun h => absurd (show (wrote 0xF018).st = 0 from h) (by decide)⟩
theorem witness_ConfigurationNeverChanges :
    step (State3 (start 0x6A2B) 7 0 0) = .next (wrote 0x6A2B) := wrote_step _ (by decide)
theorem witness_IdleLoopStays : (start 0x1200).inputs = [.cycle 0 0] ∧ (start 0x1200).IdleLoop :=
  ⟨rfl, rfl, rfl, by decide, by rfl⟩
/-- Ticks and cycles by turns, key 7 held all the time: no edge for a machine whose last snapshot has it down. -/
def heldKey (n : Nat) : Event := if n % 2 = 0 then .tick else .cycle 0x0080 0

theorem keysBefore_heldKey (n : Nat) : keysBefore 0x0080 heldKey n = 0x0080 := by
  induction n with
  | zero => rfl
  | succ n ih =>
    rw [keysBefore, ih, heldKey]
    split <;> rfl

def held : State := { State.reset with wait := some 3, keys := 0x0080, inputs := [.tick, .cycle 0x0080 0] }

theorem witness_WaitingForeverStays :
    held.WaitsForever heldKey ∧ held.inputs = (List.range 2).map heldKey ++ [] := by
  refine ⟨⟨⟨rfl, nofun⟩, fun n image => ?_, fun n keysIn rnd h => ?_⟩, rfl⟩
  · rw [heldKey]; split <;> nofun
  · rw [show held.keys = 0x0080 from rfl, keysBefore_heldKey]
    rw [heldKey] at h
    split at h
    · cases h
    · cases h; rfl
/-- A wait that the next cycle ends is no wait for ever. -/
theorem test_wait_that_ends : ¬ ({ State.reset with wait := some 3 } : State).WaitsForever fun _ => .cycle 0x0080 0 :=
  fun h => absurd (h.2.2 0 0x0080 0 rfl) (by decide)
theorem witness_ResetRefusesBadImages :
    ({ State.reset with inputs := [.reset []] } : State).inputs = [.reset []] ∧ ([] : List Byte).length = 0 ∧
      3584 < (List.replicate 3585 (0 : Byte)).length := ⟨rfl, rfl, by rw [List.length_replicate]; decide⟩
theorem witness_ResetReplacesTheWholeState :
    ({ State.reset with inputs := [.reset [0x60]] } : State).inputs = [.reset [0x60]] ∧ 1 ≤ [(0x60 : Byte)].length ∧
      [(0x60 : Byte)].length ≤ 3584 ∧ 1 ≤ (List.replicate 3584 (0 : Byte)).length ∧
      (List.replicate 3584 (0 : Byte)).length ≤ 3584 := ⟨rfl, by decide, by decide,
  by rw [List.length_replicate]; decide, by rw [List.length_replicate]⟩

/-- The invariant and a step: of a running, a waiting and a halted machine. -/
theorem witness_StepKeepsInvariant :
    (start 0x6A2B).Inv ∧ ({ start 0xF30A with wait := some 3 } : State).Inv ∧
      ({ start 0x00EE with halt := some .stackUnderflow } : State).Inv ∧
      runs (start 0x6A2B) (fun _ => true) = true := by
  refine ⟨⟨by decide, nofun, fun _ => ⟨by decide, fun k => ?_⟩, nofun⟩,
    ⟨by decide, fun r h => ⟨0xF30A, by rfl, ?_⟩, fun _ => ⟨by decide, fun k => ?_⟩, nofun⟩,
    ⟨by decide, nofun, fun _ => ⟨by decide, fun k => ?_⟩, fun f h => ?_⟩, by decide⟩
  · simp [start, State.withFetchWord, State.placeForFetch, State.reset]
  · cases h; decide
  · simp [start, State.withFetchWord, State.placeForFetch, State.reset]
  · simp [start, State.withFetchWord, State.placeForFetch, State.reset]
  · cases h; exact ⟨rfl, 0x00EE, by rfl, by decide⟩

end Sys2Proof.Tests
end

section
/-! The rows of the opcode map as patterns of literal bits, and their disjointness (30_encoding.md R75, R77, R78). -/

namespace Sys2Proof

/-! ### What a row matches -/

theorem OpRow.matchesWord_iff (r : OpRow) (w : Word) :
    r.matchesWord w = true ↔ w &&& r.mask = r.value ∧ w ∉ r.except := by
  simp [OpRow.matchesWord]

/-- A `FIXED` row (mask `0xFFFF`) matches one word only (R75 rows 1 and 2). -/
theorem matchesWord_fixed (v w : Word) : OpRow.matchesWord ⟨0xFFFF#16, v, []⟩ w = decide (w = v) := by
  have hmask : w &&& 0xFFFF#16 = w := BitVec.and_allOnes
  simp [OpRow.matchesWord, hmask]

/-- The mask `0xF000` leaves the field `op` alone. -/
theorem and_topNibble (w : Word) : w &&& 0xF000#16 = formatNNN (fieldOp w) 0 := by
  rw [← Laws.EncodeRow.nnn_row (fieldOp w) (fieldNNN w), formatNNN_fields]

theorem and_topNibble_eq_zero_iff (w : Word) : w &&& 0xF000#16 = 0#16 ↔ fieldOp w = 0#4 := by
  rw [and_topNibble]
  constructor
  · intro h
    rw [← fieldOp_formatNNN (fieldOp w) 0, h]
    rfl
  · intro h
    rw [h]
    rfl

/-- Row 3 has its two exclusions written out (R77). -/
theorem sys_matchesWord_iff (a : Addr12) (w : Word) :
    (Instr.sys a).opRow.matchesWord w = true ↔ fieldOp w = 0 ∧ w ≠ 0x00E0#16 ∧ w ≠ 0x00EE#16 := by
  simp [OpRow.matchesWord_iff, Instr.opRow, and_topNibble_eq_zero_iff]

/-! ### When two rows can match one word -/

/-- Two rows agree on the bits that both of them fix. Rows that disagree on one such bit have no word in common. -/
def OpRow.agrees (r s : OpRow) : Bool := decide (r.value &&& s.mask = s.value &&& r.mask)

theorem agrees_of_matchesWord {r s : OpRow} {w : Word} (hr : r.matchesWord w = true) (hs : s.matchesWord w = true) :
    r.agrees s = true := by
  obtain ⟨hr, -⟩ := (r.matchesWord_iff w).mp hr
  obtain ⟨hs, -⟩ := (s.matchesWord_iff w).mp hs
  rw [OpRow.agrees, decide_eq_true_iff]
  calc r.value &&& s.mask = w &&& r.mask &&& s.mask := by rw [hr]
    _ = w &&& s.mask &&& r.mask := by ac_rfl
    _ = s.value &&& r.mask := by rw [hs]

/-- The check of the table R78 asks for: row 3 apart, no two rows agree on the bits they both fix. -/
theorem opcodeRows_agree_only_with_themselves :
    ∀ j k : Fin 35, j.val ≠ 2 → k.val ≠ 2 → ∀ r ∈ opcodeRows[j.val]?, ∀ s ∈ opcodeRows[k.val]?,
      r.agrees s = true → j = k := by
  decide

/-! ### The statement -/

/-- Settles O4: two rows that match one word agree on the bits they both fix, which the table rules out; row 3 is read
off its mask and its exclusions. -/
theorem opcodeRowsDisjoint : Obligations.OpcodeRowsDisjoint := by
  unfold Obligations.OpcodeRowsDisjoint
  constructor
  · intro w j k hj hk hmatchj hmatchk
    obtain ⟨r, hr, hrw⟩ := Option.map_eq_some_iff.mp hmatchj
    obtain ⟨s, hs, hsw⟩ := Option.map_eq_some_iff.mp hmatchk
    exact opcodeRows_agree_only_with_themselves j k hj hk r hr s hs (agrees_of_matchesWord hrw hsw)
  · intro w
    have row1 : opcodeRows[0]? = some ⟨0xFFFF#16, 0x00E0#16, []⟩ := rfl
    have row2 : opcodeRows[1]? = some ⟨0xFFFF#16, 0x00EE#16, []⟩ := rfl
    have row3 : opcodeRows[2]? = some (Instr.sys 0).opRow := rfl
    simp only [row1, row2, row3, Option.map_some, Option.some.injEq, sys_matchesWord_iff, matchesWord_fixed,
      decide_eq_false_iff_not, ne_eq]

end Sys2Proof
end

section
/-! Frames of the state operations, what each instruction may write, and control transfer (41_flow.md). -/

namespace Sys2Proof.Machine

/-! ### Frames compose

A frame lists the parts that may differ. Frames of operations in sequence are appended, and a longer list is weaker. -/

theorem OnlyChanges.mono {s t : State} {ps qs : List Part} (h : OnlyChanges s t ps) (hsub : ps ⊆ qs) :
    OnlyChanges s t qs := by
  obtain ⟨hfixed, hparts⟩ := h
  exact ⟨hfixed, fun p hp => hparts p fun hmem => hp (hsub hmem)⟩

theorem OnlyChanges.append {s t u : State} {ps qs : List Part} (h : OnlyChanges s t ps) (h' : OnlyChanges t u qs) :
    OnlyChanges s u (ps ++ qs) :=
  onlyChanges_trans (h.mono (List.subset_append_left ps qs)) (h'.mono (List.subset_append_right ps qs))

/-! ### The frame of each state operation -/

theorem State.setReg_onlyChanges (s : State) (x : RegIdx) (b : Byte) : OnlyChanges s (s.setReg x b) [.regs] :=
  ⟨⟨rfl, rfl, rfl, rfl⟩, fun p hp => by cases p <;> simp_all [Agrees]⟩

theorem State.setFlag_onlyChanges (s : State) (c : Bool) : OnlyChanges s (s.setFlag c) [.regs] :=
  s.setReg_onlyChanges vf (flagByte c)

theorem State.setResultFlag_onlyChanges (s : State) (x : RegIdx) (b : Byte) (c : Bool) :
    OnlyChanges s (s.setResultFlag x b c) [.regs] :=
  onlyChanges_trans (s.setReg_onlyChanges x b) ((s.setReg x b).setFlag_onlyChanges c)

theorem State.setRegs_onlyChanges (s : State) (k : Nat) (bs : List Byte) : OnlyChanges s (s.setRegs k bs) [.regs] := by
  induction bs generalizing s k with
  | nil => exact ⟨⟨rfl, rfl, rfl, rfl⟩, fun p _ => agrees_refl s p⟩
  | cons b bs ih => exact onlyChanges_trans (s.setReg_onlyChanges _ b) (ih _ (k + 1))

theorem State.setI_onlyChanges (s : State) (w : Word) : OnlyChanges s (s.setI w) [.index] :=
  ⟨⟨rfl, rfl, rfl, rfl⟩, fun p hp => by cases p <;> simp_all [Agrees]⟩

theorem State.setPc_onlyChanges (s : State) (w : Word) : OnlyChanges s (s.setPc w) [.pc] :=
  ⟨⟨rfl, rfl, rfl, rfl⟩, fun p hp => by cases p <;> simp_all [Agrees]⟩

theorem State.advance_onlyChanges (s : State) : OnlyChanges s s.advance [.pc] := s.setPc_onlyChanges (s.pc + 2)

theorem State.skipIf_onlyChanges (s : State) (c : Bool) : OnlyChanges s (s.skipIf c) [.pc] := s.setPc_onlyChanges _

theorem State.setDt_onlyChanges (s : State) (b : Byte) : OnlyChanges s (s.setDt b) [.delay] :=
  ⟨⟨rfl, rfl, rfl, rfl⟩, fun p hp => by cases p <;> simp_all [Agrees]⟩

theorem State.setSt_onlyChanges (s : State) (b : Byte) : OnlyChanges s (s.setSt b) [.sound] :=
  ⟨⟨rfl, rfl, rfl, rfl⟩, fun p hp => by cases p <;> simp_all [Agrees]⟩

theorem State.setFb_onlyChanges (s : State) (f : Framebuffer) : OnlyChanges s (s.setFb f) [.screen] :=
  ⟨⟨rfl, rfl, rfl, rfl⟩, fun p hp => by cases p <;> simp_all [Agrees]⟩

theorem State.setWait_onlyChanges (s : State) (w : Option RegIdx) : OnlyChanges s (s.setWait w) [.wait] :=
  ⟨⟨rfl, rfl, rfl, rfl⟩, fun p hp => by cases p <;> simp_all [Agrees]⟩

theorem State.emit_onlyChanges (s : State) (d : Diagnostic) : OnlyChanges s (s.emit d) [.diagnostics] :=
  ⟨⟨rfl, rfl, rfl, rfl⟩, fun p hp => by cases p <;> simp_all [Agrees]⟩

theorem State.setStack_onlyChanges (s : State) (stack : Vector Word 16) (sp : Fin 17) :
    OnlyChanges s (s.setStack stack sp) [.stack] :=
  ⟨⟨rfl, rfl, rfl, rfl⟩, fun p hp => by cases p <;> simp_all [Agrees]⟩

theorem State.store_onlyChanges (s : State) (cells : List Nat) (bytes : List Byte) :
    OnlyChanges s (s.store cells bytes) [.mem] :=
  ⟨⟨rfl, rfl, rfl, rfl⟩, fun p hp => by cases p <;> simp_all [Agrees]⟩

/-! ### Which register an operation may change -/

theorem State.reg_setReg_eq_or (s : State) (x : RegIdx) (b : Byte) (r : RegIdx) :
    (s.setReg x b).reg r = s.reg r ∨ r = x :=
  or_iff_not_imp_right.2 (s.reg_setReg_ne b)

theorem State.reg_setResultFlag_eq_or (s : State) (x : RegIdx) (b : Byte) (c : Bool) (r : RegIdx) :
    (s.setResultFlag x b c).reg r = s.reg r ∨ r = x ∨ r = vf := by
  obtain hflag | hr := (s.setReg x b).reg_setReg_eq_or vf (flagByte c) r
  · obtain hresult | hr := s.reg_setReg_eq_or x b r
    · exact .inl (hflag.trans hresult)
    · exact .inr (.inl hr)
  · exact .inr (.inr hr)

/-- A block load of `x + 1` bytes reaches no register above `x` (R195). -/
theorem State.reg_setRegs_eq_or (s : State) {x : RegIdx} {bs : List Byte} (hlen : bs.length = x.toNat + 1) (r : RegIdx) :
    (s.setRegs 0 bs).reg r = s.reg r ∨ r ≤ x := by
  by_cases hr : r ≤ x
  · exact .inr hr
  · have habove : ¬ r.toNat < x.toNat + 1 := fun h => hr (BitVec.le_def.2 (Nat.lt_succ_iff.1 h))
    rw [s.reg_setRegs 0 bs (by omega), if_neg (by omega)]
    exact .inl rfl

/-! ### Control transfer, equation by equation -/

theorem exec_ret_empty {s : State} (h : s.sp = 0) : exec .ret s = .next (s.raise .stackUnderflow) := by
  simp [exec, execRet, State.pop_empty h]

theorem exec_ret_pop {s : State} {k : Fin 16} (h : s.sp = k.succ) :
    exec .ret s = .next ((s.setStack s.stack k.castSucc).setPc s.stack[k]) := by
  simp [exec, execRet, State.pop, h]
  rfl

theorem exec_call_full {s : State} (h : s.sp = 16) (nnn : Addr12) :
    exec (.call nnn) s = .next (s.raise .stackOverflow) := by
  simp [exec, execCall, State.push_full h]

theorem exec_call_push {s : State} {k : Fin 16} (h : s.sp = k.castSucc) (nnn : Addr12) :
    exec (.call nnn) s =
      .next ((s.setStack (s.stack.set k.val (s.pc + 2) k.isLt) k.succ).setPc (zextAddr nnn)) := by
  simp [exec, execCall, State.push, h]
  rfl

/-- A `RET` or `CALL` that does not raise changes the stack and PC. -/
theorem State.setStack_setPc_onlyChanges (s : State) (stack : Vector Word 16) (sp : Fin 17) (w : Word) :
    OnlyChanges s ((s.setStack stack sp).setPc w) [.pc, .stack] :=
  ((s.setStack_onlyChanges stack sp).append (State.setPc_onlyChanges _ w)).mono (by simp)

/-- The word of `SYS nnn` is its address, the top nibble being 0 (R77). -/
theorem formatNNN_zero (nnn : Addr12) : formatNNN 0x0#4 nnn = nnn.zeroExtend 16 :=
  BitVec.setWidth_eq_append (by decide) |>.symm

/-! ### What an instruction may write -/

/-- The parts an instruction may write when it does not raise. -/
def partsWritten : Instr → List Part
  | .cls => [.screen, .pc]
  | .drw _ _ _ => [.screen, .regs, .pc]
  | .ret => [.pc, .stack]
  | .call _ => [.pc, .stack]
  | .sys _ => [.diagnostics, .pc]
  | .jp _ => [.pc]
  | .jpV0 _ => [.pc]
  | .seByte _ _ => [.pc]
  | .sneByte _ _ => [.pc]
  | .seReg _ _ => [.pc]
  | .sneReg _ _ => [.pc]
  | .skp _ => [.pc]
  | .sknp _ => [.pc]
  | .ldByte _ _ => [.regs, .pc]
  | .addByte _ _ => [.regs, .pc]
  | .ldReg _ _ => [.regs, .pc]
  | .orReg _ _ => [.regs, .pc]
  | .andReg _ _ => [.regs, .pc]
  | .xorReg _ _ => [.regs, .pc]
  | .addReg _ _ => [.regs, .pc]
  | .subReg _ _ => [.regs, .pc]
  | .shr _ _ => [.regs, .pc]
  | .subnReg _ _ => [.regs, .pc]
  | .shl _ _ => [.regs, .pc]
  | .rnd _ _ => [.regs, .pc]
  | .ldVxDt _ => [.regs, .pc]
  | .ldVxMem _ => [.regs, .pc]
  | .ldI _ => [.index, .pc]
  | .addI _ => [.index, .pc]
  | .ldF _ => [.index, .pc]
  | .ldDtVx _ => [.delay, .pc]
  | .ldStVx _ => [.sound, .pc]
  | .ldB _ => [.mem, .pc]
  | .ldMemVx _ => [.mem, .pc]
  | .ldVxK _ => [.wait]

/-- The registers an instruction may write: its `x`, the registers up to `x`, or VF as the flag (R22, R172, R195). -/
def WritesReg : Instr → RegIdx → Prop
  | .ldByte x _, r => r = x
  | .addByte x _, r => r = x
  | .rnd x _, r => r = x
  | .ldReg x _, r => r = x
  | .orReg x _, r => r = x
  | .andReg x _, r => r = x
  | .xorReg x _, r => r = x
  | .addReg x _, r => r = x ∨ r = vf
  | .subReg x _, r => r = x ∨ r = vf
  | .shr x _, r => r = x ∨ r = vf
  | .subnReg x _, r => r = x ∨ r = vf
  | .shl x _, r => r = x ∨ r = vf
  | .ldVxDt x, r => r = x
  | .ldVxMem x, r => r ≤ x
  | .drw _ _ _, r => r = vf
  | _, _ => False

/-- The instructions that may raise a fatal condition (60_exceptions.md section 8). -/
def CanRaise (i : Instr) : Prop :=
  i = .ret ∨ (∃ nnn, i = .call nnn ∨ i = .sys nnn) ∨ (∃ x y n, i = .drw x y n) ∨
    ∃ x, i = .ldB x ∨ i = .ldMemVx x ∨ i = .ldVxMem x

/-- The six conditional skips (42_skip.md). -/
def IsSkip (i : Instr) : Prop :=
  (∃ x nn, i = .seByte x nn ∨ i = .sneByte x nn) ∨ (∃ x y, i = .seReg x y ∨ i = .sneReg x y) ∨
    ∃ x, i = .skp x ∨ i = .sknp x

/-- The four control transfers (41_flow.md). -/
def IsTransfer (i : Instr) : Prop := i = .ret ∨ ∃ nnn, i = .jp nnn ∨ i = .call nnn ∨ i = .jpV0 nnn

/-- `t` is what `i` may leave of `s` when it does not raise. -/
structure Completes (i : Instr) (s t : State) : Prop where
  frame : OnlyChanges s t (partsWritten i)
  regs  : ∀ r, t.reg r = s.reg r ∨ WritesReg i r
  pc    : .pc ∈ partsWritten i → t.pc = s.pc + 2 ∨ IsTransfer i ∨ (t.pc = s.pc + 4 ∧ IsSkip i)

/-- An instruction that writes other parts than PC and then advances. -/
theorem completes_advance {i : Instr} {s u : State} {ps : List Part} (hframe : OnlyChanges s u ps)
    (hwritten : partsWritten i = ps ++ [.pc]) (hpc : u.pc = s.pc) (hregs : ∀ r, u.reg r = s.reg r ∨ WritesReg i r) :
    Completes i s u.advance where
  frame := hwritten ▸ hframe.append u.advance_onlyChanges
  regs := hregs
  pc := fun _ => .inl (by rw [State.advance_pc, hpc])

theorem completes_skipIf {i : Instr} (hskip : IsSkip i) (hwritten : partsWritten i = [.pc]) (s : State) (c : Bool) :
    Completes i s (s.skipIf c) where
  frame := hwritten ▸ s.skipIf_onlyChanges c
  regs := fun _ => .inl rfl
  pc := fun _ => by
    cases c with
    | true => exact .inr (.inr ⟨rfl, hskip⟩)
    | false => exact .inl rfl

theorem completes_setStack_setPc {i : Instr} (htransfer : IsTransfer i) (hwritten : partsWritten i = [.pc, .stack])
    (s : State) (stack : Vector Word 16) (sp : Fin 17) (w : Word) : Completes i s ((s.setStack stack sp).setPc w) where
  frame := hwritten ▸ s.setStack_setPc_onlyChanges stack sp w
  regs := fun _ => .inl rfl
  pc := fun _ => .inr (.inl htransfer)

theorem completes_setReg {i : Instr} {x : RegIdx} (hwritten : partsWritten i = [.regs, .pc])
    (hreg : ∀ r, r = x → WritesReg i r) (s : State) (b : Byte) : Completes i s (s.setReg x b).advance :=
  completes_advance (s.setReg_onlyChanges x b) hwritten rfl fun r =>
    (s.reg_setReg_eq_or x b r).imp_right (hreg r)

theorem completes_setResultFlag {i : Instr} {x : RegIdx} (hwritten : partsWritten i = [.regs, .pc])
    (hreg : ∀ r, r = x ∨ r = vf → WritesReg i r) (s : State) (b : Byte) (c : Bool) :
    Completes i s (s.setResultFlag x b c).advance :=
  completes_advance (s.setResultFlag_onlyChanges x b c) hwritten rfl fun r =>
    (s.reg_setResultFlag_eq_or x b c r).imp_right (hreg r)

/-- Every instruction raises, changing HALT alone, or completes. -/
theorem exec_cases (i : Instr) (s : State) :
    ∃ t, exec i s = .next t ∧ ((CanRaise i ∧ ∃ f, t = s.raise f) ∨ Completes i s t) := by
  cases i with
  | cls => exact ⟨_, rfl, .inr (completes_advance (s.setFb_onlyChanges _) rfl rfl fun _ => .inl rfl)⟩
  | drw x y n =>
    simp only [exec, execDrw]
    split
    · exact ⟨_, rfl, .inl ⟨by simp [CanRaise], _, rfl⟩⟩
    · exact ⟨_, rfl, .inr (completes_advance ((s.setFb_onlyChanges _).append (State.setFlag_onlyChanges _ _)) rfl rfl
        (State.reg_setReg_eq_or _ vf _))⟩
  | ret =>
    by_cases h : s.sp = 0
    · exact ⟨_, exec_ret_empty h, .inl ⟨.inl rfl, _, rfl⟩⟩
    · obtain ⟨k, hk⟩ := Fin.exists_succ_eq_of_ne_zero h
      exact ⟨_, exec_ret_pop hk.symm, .inr (completes_setStack_setPc (.inl rfl) rfl s _ _ _)⟩
  | call nnn =>
    by_cases h : s.sp = 16
    · exact ⟨_, exec_call_full h nnn, .inl ⟨by simp [CanRaise], _, rfl⟩⟩
    · obtain ⟨k, hk⟩ := Fin.exists_castSucc_eq.2 h
      exact ⟨_, exec_call_push hk.symm nnn, .inr (completes_setStack_setPc (by simp [IsTransfer]) rfl s _ _ _)⟩
  | sys nnn =>
    obtain ⟨-, h⟩ | ⟨-, h⟩ := execUnknown_cases (formatNNN 0x0#4 nnn) s
    · exact ⟨_, h, .inl ⟨by simp [CanRaise], _, rfl⟩⟩
    · exact ⟨_, h, .inr (completes_advance (s.emit_onlyChanges _) rfl rfl fun _ => .inl rfl)⟩
  | jp | jpV0 =>
    exact ⟨_, rfl, .inr ⟨s.setPc_onlyChanges _, fun _ => .inl rfl, fun _ => .inr (.inl (by simp [IsTransfer]))⟩⟩
  | seByte | sneByte | seReg | sneReg | skp | sknp => exact ⟨_, rfl, .inr (completes_skipIf (by simp [IsSkip]) rfl s _)⟩
  | ldByte | addByte | rnd | ldReg | orReg | andReg | xorReg | ldVxDt =>
    exact ⟨_, rfl, .inr (completes_setReg rfl (fun _ => id) s _)⟩
  | addReg | subReg | shr | subnReg | shl => exact ⟨_, rfl, .inr (completes_setResultFlag rfl (fun _ => id) s _ _)⟩
  | ldVxMem x =>
    simp only [exec, execLdVxMem]
    split
    · exact ⟨_, rfl, .inl ⟨by simp [CanRaise], _, rfl⟩⟩
    · next cells hcells =>
      have hlen : (s.load cells).length = x.toNat + 1 := by rw [State.load, List.length_map, span_length hcells]
      exact ⟨_, rfl, .inr (completes_advance (s.setRegs_onlyChanges 0 _) rfl (s.setRegs_pc 0 _)
        (s.reg_setRegs_eq_or hlen))⟩
  | ldI | addI | ldF => exact ⟨_, rfl, .inr (completes_advance (s.setI_onlyChanges _) rfl rfl fun _ => .inl rfl)⟩
  | ldDtVx => exact ⟨_, rfl, .inr (completes_advance (s.setDt_onlyChanges _) rfl rfl fun _ => .inl rfl)⟩
  | ldStVx => exact ⟨_, rfl, .inr (completes_advance (s.setSt_onlyChanges _) rfl rfl fun _ => .inl rfl)⟩
  | ldB x =>
    simp only [exec, execLdB]
    split
    · exact ⟨_, rfl, .inl ⟨by simp [CanRaise], _, rfl⟩⟩
    · exact ⟨_, rfl, .inr (completes_advance (s.store_onlyChanges _ _) rfl rfl fun _ => .inl rfl)⟩
  | ldMemVx x =>
    simp only [exec, execLdMemVx]
    split
    · exact ⟨_, rfl, .inl ⟨by simp [CanRaise], _, rfl⟩⟩
    · exact ⟨_, rfl, .inr (completes_advance (s.store_onlyChanges _ _) rfl rfl fun _ => .inl rfl)⟩
  | ldVxK x => exact ⟨_, rfl, .inr ⟨s.setWait_onlyChanges _, fun _ => .inl rfl, by simp [partsWritten]⟩⟩

/-- `exec_cases` read off a given next state. -/
theorem raises_or_completes {i : Instr} {s t : State} (h : exec i s = .next t) :
    (CanRaise i ∧ ∃ f, Raises s t f) ∨ Completes i s t := by
  obtain ⟨t', ht', hcases⟩ := exec_cases i s
  obtain rfl : t' = t := Host.Outcome.next.inj (ht'.symm.trans h)
  exact hcases.imp_left fun ⟨hi, f, hf⟩ => ⟨hi, f, hf ▸ s.raise_raises f⟩

/-! ### The tables read backwards -/

theorem mem_mem_partsWritten {i : Instr} (h : .mem ∈ partsWritten i) : ∃ x, i = .ldB x ∨ i = .ldMemVx x := by
  cases i <;> simp [partsWritten] at h ⊢

theorem screen_mem_partsWritten {i : Instr} (h : .screen ∈ partsWritten i) : i = .cls ∨ ∃ x y n, i = .drw x y n := by
  cases i <;> simp [partsWritten] at h ⊢

theorem stack_mem_partsWritten {i : Instr} (h : .stack ∈ partsWritten i) : i = .ret ∨ ∃ nnn, i = .call nnn := by
  cases i <;> simp [partsWritten] at h ⊢

theorem index_mem_partsWritten {i : Instr} (h : .index ∈ partsWritten i) :
    (∃ nnn, i = .ldI nnn) ∨ ∃ x, i = .addI x ∨ i = .ldF x := by
  cases i <;> simp [partsWritten] at h ⊢

theorem delay_mem_partsWritten {i : Instr} (h : .delay ∈ partsWritten i) : ∃ x, i = .ldDtVx x := by
  cases i <;> simp [partsWritten] at h ⊢

theorem sound_mem_partsWritten {i : Instr} (h : .sound ∈ partsWritten i) : ∃ x, i = .ldStVx x := by
  cases i <;> simp [partsWritten] at h ⊢

theorem wait_mem_partsWritten {i : Instr} (h : .wait ∈ partsWritten i) : ∃ x, i = .ldVxK x := by
  cases i <;> simp [partsWritten] at h ⊢

theorem diagnostics_mem_partsWritten {i : Instr} (h : .diagnostics ∈ partsWritten i) : ∃ nnn, i = .sys nnn := by
  cases i <;> simp [partsWritten] at h ⊢

theorem keys_not_mem_partsWritten (i : Instr) : .keys ∉ partsWritten i := by
  cases i <;> simp [partsWritten]

theorem halt_not_mem_partsWritten (i : Instr) : .halt ∉ partsWritten i := by
  cases i <;> simp [partsWritten]

theorem ne_ldVxK_of_pc_mem_partsWritten {i : Instr} (h : .pc ∈ partsWritten i) (x : RegIdx) : i ≠ .ldVxK x := by
  rintro rfl
  simp [partsWritten] at h

/-- The instructions that write register `r`, by how they name it. -/
theorem WritesReg.instr {i : Instr} {r : RegIdx} (h : WritesReg i r) :
    (∃ nn, i = .ldByte r nn ∨ i = .addByte r nn ∨ i = .rnd r nn) ∨
    (∃ y, i = .ldReg r y ∨ i = .orReg r y ∨ i = .andReg r y ∨ i = .xorReg r y ∨ i = .addReg r y ∨ i = .subReg r y ∨
      i = .shr r y ∨ i = .subnReg r y ∨ i = .shl r y) ∨
    i = .ldVxDt r ∨
    (∃ x, r ≤ x ∧ i = .ldVxMem x) ∨
    (r = vf ∧ ((∃ x y, i = .addReg x y ∨ i = .subReg x y ∨ i = .shr x y ∨ i = .subnReg x y ∨ i = .shl x y) ∨
      ∃ x y n, i = .drw x y n)) := by
  cases i <;> simp [WritesReg] at h ⊢ <;> simp [h, eq_comm]

/-! ### What differs after an instruction -/

/-- A part other than HALT that differs after an instruction is in its table. -/
theorem mem_partsWritten_of_not_agrees {i : Instr} {s t : State} {p : Part} (h : exec i s = .next t) (hp : p ≠ .halt)
    (hdiff : ¬ Agrees s t p) : p ∈ partsWritten i := by
  obtain ⟨-, f, -, -, hparts⟩ | hc := raises_or_completes h
  · exact absurd (hparts p (by simpa using hp)) hdiff
  · exact by_contra fun hmem => hdiff (hc.frame.2 p hmem)

theorem writesReg_of_reg_ne {i : Instr} {s t : State} {r : RegIdx} (h : exec i s = .next t) (hdiff : t.reg r ≠ s.reg r) :
    WritesReg i r := by
  obtain ⟨-, f, -, -, hparts⟩ | hc := raises_or_completes h
  · exact absurd (hparts .regs (by simp) r) hdiff
  · exact (hc.regs r).resolve_left hdiff

/-- Where PC differs, the instruction completed: it advanced, skipped or transferred control. -/
theorem pc_cases_of_not_agrees {i : Instr} {s t : State} (h : exec i s = .next t) (hdiff : ¬ Agrees s t .pc) :
    t.halt = s.halt ∧ (t.pc = s.pc + 2 ∨ IsTransfer i ∨ (t.pc = s.pc + 4 ∧ IsSkip i)) := by
  obtain ⟨-, f, -, -, hparts⟩ | hc := raises_or_completes h
  · exact absurd (hparts .pc (by simp)) hdiff
  · exact ⟨hc.frame.2 .halt (halt_not_mem_partsWritten i), hc.pc (mem_partsWritten_of_not_agrees h (by simp) hdiff)⟩

theorem raises_of_halt_ne {i : Instr} {s t : State} (h : exec i s = .next t) (hdiff : ¬ Agrees s t .halt) :
    CanRaise i ∧ ∃ f, Raises s t f :=
  (raises_or_completes h).resolve_right fun hc => hdiff (hc.frame.2 .halt (halt_not_mem_partsWritten i))

/-! ### The statements -/

/-- Settles O47: an instruction raises, changing HALT alone, or completes within its tables of parts and registers. -/
theorem eachPartHasItsWriters : Obligations.EachPartHasItsWriters := by
  unfold Obligations.EachPartHasItsWriters
  intro i s t h
  have hwritten {p : Part} : p ≠ .halt → ¬ Agrees s t p → p ∈ partsWritten i := mem_partsWritten_of_not_agrees h
  refine ⟨fun hd => mem_mem_partsWritten (hwritten (by simp) hd), fun r hr => (writesReg_of_reg_ne h hr).instr,
    fun hd => ?pc, fun hd => ?halt, fun hd => screen_mem_partsWritten (hwritten (by simp) hd),
    fun hd => stack_mem_partsWritten (hwritten (by simp) hd), fun hd => index_mem_partsWritten (hwritten (by simp) hd),
    fun hd => delay_mem_partsWritten (hwritten (by simp) hd), fun hd => sound_mem_partsWritten (hwritten (by simp) hd),
    fun hd => wait_mem_partsWritten (hwritten (by simp) hd),
    fun hd => diagnostics_mem_partsWritten (hwritten (by simp) hd),
    by_contra fun hd => keys_not_mem_partsWritten i (hwritten (by simp) hd)⟩
  case pc =>
    obtain ⟨hhalt, hpc⟩ := pc_cases_of_not_agrees h hd
    exact ⟨hhalt, ne_ldVxK_of_pc_mem_partsWritten (hwritten (by simp) hd), hpc.imp_right or_assoc.1⟩
  case halt =>
    obtain ⟨hraise, f, hf⟩ := raises_of_halt_ne h hd
    exact ⟨f, hf, hraise⟩

/-- Settles O16: `SYS` is the Unknown word `0NNN`, under each policy. -/
theorem sysActsAsUnknown : Obligations.SysActsAsUnknown := by
  unfold Obligations.SysActsAsUnknown
  intro s nnn
  have hexec : exec (.sys nnn) s = execUnknown (nnn.zeroExtend 16) s := by rw [← formatNNN_zero]; rfl
  rw [hexec]
  obtain ⟨hpolicy, h⟩ | ⟨hpolicy, h⟩ := execUnknown_cases (nnn.zeroExtend 16) s <;> simp only [hpolicy, h]
  · exact ⟨fun _ => ⟨_, rfl, s.raise_raises _⟩, nofun⟩
  · exact ⟨nofun, fun _ => ⟨_, rfl, rfl, rfl,
      ((s.emit_onlyChanges _).append (State.advance_onlyChanges _)).mono (by simp)⟩⟩

/-- Settles O17, by the two equations of `RET`. -/
theorem retPopsReturnAddress : Obligations.RetPopsReturnAddress := by
  unfold Obligations.RetPopsReturnAddress
  intro s
  refine ⟨fun hsp => ⟨_, exec_ret_empty hsp, s.raise_raises _⟩, fun k hk => ?_⟩
  exact ⟨_, exec_ret_pop (k := k) (Fin.ext hk), rfl, rfl, fun _ => rfl, s.setStack_setPc_onlyChanges _ _ _⟩

/-- Settles O18. -/
theorem jpSetsPc : Obligations.JpSetsPc := by
  unfold Obligations.JpSetsPc
  intro s nnn
  exact ⟨_, rfl, rfl, s.setPc_onlyChanges (zextAddr nnn)⟩

/-- Settles O19, by the two equations of `CALL`. -/
theorem callPushesReturnAddress : Obligations.CallPushesReturnAddress := by
  unfold Obligations.CallPushesReturnAddress
  intro s nnn
  refine ⟨fun hsp => ⟨_, exec_call_full hsp nnn, s.raise_raises _⟩, fun k hk => ?_⟩
  refine ⟨_, exec_call_push (k := k) (Fin.ext hk) nnn, rfl, rfl, fun j => ?_, s.setStack_setPc_onlyChanges _ _ _⟩
  simp [Vector.getElem_set, Fin.ext_iff, eq_comm]

/-- Settles O20: the 16-bit sum is the sum modulo 65536, with no reduction to 12 bits. -/
theorem jpV0AddsV0 : Obligations.JpV0AddsV0 := by
  unfold Obligations.JpV0AddsV0
  intro s nnn
  refine ⟨_, rfl, ?_, s.setPc_onlyChanges _⟩
  have haddr : nnn.toNat % 2 ^ 16 = nnn.toNat := Nat.mod_eq_of_lt (by omega)
  have hbyte : (s.reg 0).toNat % 2 ^ 16 = (s.reg 0).toNat := Nat.mod_eq_of_lt (by omega)
  rw [State.setPc_pc, BitVec.toNat_add, zextAddr, zextByte, BitVec.toNat_setWidth, BitVec.toNat_setWidth, haddr, hbyte]

end Sys2Proof.Machine
end

section
/-! Conditional skips (42_skip.md). -/

namespace Sys2Proof.Machine

/-- What a skip on the condition `c` does, for any two propositions that say when `c` holds and when it fails. -/
theorem exists_next_of_exec_eq_skipIf {i : Instr} {s : State} {c : Bool} {p q : Prop}
    (hexec : exec i s = .next (s.skipIf c)) (htaken : p → c = true) (hnotTaken : q → c = false) :
    ∃ t, exec i s = .next t ∧ (p → t.pc = s.pc + 4) ∧ (q → t.pc = s.pc + 2) ∧ OnlyChanges s t [.pc] := by
  refine ⟨s.skipIf c, hexec, fun hp => ?_, fun hq => ?_, s.skipIf_onlyChanges c⟩
  · rw [State.skipIf_pc, if_pos (htaken hp)]
  · rw [State.skipIf_pc, hnotTaken hq, if_neg Bool.false_ne_true]

theorem exec_seByte (x : RegIdx) (nn : Byte) (s : State) :
    exec (.seByte x nn) s = .next (s.skipIf (decide (s.reg x = nn))) := rfl

theorem exec_sneByte (x : RegIdx) (nn : Byte) (s : State) :
    exec (.sneByte x nn) s = .next (s.skipIf (!decide (s.reg x = nn))) := rfl

theorem exec_seReg (x y : RegIdx) (s : State) :
    exec (.seReg x y) s = .next (s.skipIf (decide (s.reg x = s.reg y))) := rfl

theorem exec_sneReg (x y : RegIdx) (s : State) :
    exec (.sneReg x y) s = .next (s.skipIf (!decide (s.reg x = s.reg y))) := rfl

/-- Settles O22: `SE` skips on the comparison with the byte, `SNE` on its negation. -/
theorem skipsOnByteComparison : Obligations.SkipsOnByteComparison := by
  unfold Obligations.SkipsOnByteComparison
  intro s x nn
  constructor
  · exact exists_next_of_exec_eq_skipIf (exec_seByte x nn s) decide_eq_true decide_eq_false
  · exact exists_next_of_exec_eq_skipIf (exec_sneByte x nn s) (by simp) (by simp)

/-- Settles O23: `SE` skips on the comparison of the registers, `SNE` on its negation. -/
theorem skipsOnRegisterComparison : Obligations.SkipsOnRegisterComparison := by
  unfold Obligations.SkipsOnRegisterComparison
  intro s x y
  constructor
  · exact exists_next_of_exec_eq_skipIf (exec_seReg x y s) decide_eq_true decide_eq_false
  · exact exists_next_of_exec_eq_skipIf (exec_sneReg x y s) (by simp) (by simp)

end Sys2Proof.Machine
end

section
/-! Load and arithmetic (43_alu.md). -/

namespace Sys2Proof.Machine

/-- What an instruction does that writes `b` to `V[x]`, no flag beside it, and advances. -/
theorem exists_next_of_exec_eq_setReg {i : Instr} {s : State} {x : RegIdx} {b : Byte}
    (hexec : exec i s = .next (s.setReg x b).advance) :
    ∃ t, exec i s = .next t ∧ (∀ r, t.reg r = if r = x then b else s.reg r) ∧ t.pc = s.pc + 2 ∧
      OnlyChanges s t [.regs, .pc] :=
  ⟨_, hexec, fun r => s.reg_setReg x r b, rfl, (s.setReg_onlyChanges x b).append (State.advance_onlyChanges _)⟩

theorem exec_ldByte (x : RegIdx) (nn : Byte) (s : State) :
    exec (.ldByte x nn) s = .next (s.setReg x nn).advance := rfl

theorem exec_ldReg (x y : RegIdx) (s : State) : exec (.ldReg x y) s = .next (s.setReg x (s.reg y)).advance := rfl

theorem exec_addByte (x : RegIdx) (nn : Byte) (s : State) :
    exec (.addByte x nn) s = .next (s.setReg x (s.reg x + nn)).advance := rfl

/-- Settles O25: both loads write one register and advance. -/
theorem loadsWriteOneRegister : Obligations.LoadsWriteOneRegister := by
  unfold Obligations.LoadsWriteOneRegister
  intro s x y nn
  exact ⟨exists_next_of_exec_eq_setReg (exec_ldByte x nn s), exists_next_of_exec_eq_setReg (exec_ldReg x y s)⟩

/-- Settles O26: the one register written is `V[x]`, and the sum of two bytes is the sum modulo 256. -/
theorem addByteWrapsAndKeepsFlag : Obligations.AddByteWrapsAndKeepsFlag := by
  unfold Obligations.AddByteWrapsAndKeepsFlag
  intro s x nn
  obtain ⟨t, hexec, hreg, hpc, hframe⟩ := exists_next_of_exec_eq_setReg (exec_addByte x nn s)
  refine ⟨t, hexec, ?sum, fun r hr => ?others, hpc, hframe⟩
  case sum => rw [hreg, if_pos rfl, BitVec.toNat_add]
  case others => rw [hreg, if_neg hr]

end Sys2Proof.Machine
end

section
/-! The index register (44_index_memory.md R190, R191). -/

namespace Sys2Proof.Machine

/-- A byte zero-extended to a word has the byte's value. -/
theorem zextByte_toNat (b : Byte) : (zextByte b).toNat = b.toNat := BitVec.toNat_setWidth_of_le (by decide)

/-- What an instruction does that writes `w` to I and advances. -/
theorem exists_next_of_exec_eq_setI {i : Instr} {s : State} {w : Word} (hexec : exec i s = .next (s.setI w).advance) :
    ∃ t, exec i s = .next t ∧ t.i = w ∧ t.pc = s.pc + 2 ∧ OnlyChanges s t [.index, .pc] :=
  ⟨_, hexec, rfl, rfl, (s.setI_onlyChanges w).append (State.advance_onlyChanges _)⟩

theorem exec_ldI (nnn : Addr12) (s : State) : exec (.ldI nnn) s = .next (s.setI (zextAddr nnn)).advance := rfl

theorem exec_addI (x : RegIdx) (s : State) :
    exec (.addI x) s = .next (s.setI (s.i + zextByte (s.reg x))).advance := rfl

/-- Settles O32. -/
theorem ldISetsIndex : Obligations.LdISetsIndex := by
  unfold Obligations.LdISetsIndex
  intro s nnn
  exact exists_next_of_exec_eq_setI (exec_ldI nnn s)

/-- Settles O33: I and the zero-extended byte are added as words, so the sum is the sum modulo 65536. -/
theorem addIWrapsWithinSixteenBits : Obligations.AddIWrapsWithinSixteenBits := by
  unfold Obligations.AddIWrapsWithinSixteenBits
  intro s x
  obtain ⟨t, hexec, hi, hpc, hframe⟩ := exists_next_of_exec_eq_setI (exec_addI x s)
  refine ⟨t, hexec, ?sum, hpc, hframe⟩
  case sum => rw [hi, BitVec.toNat_add, zextByte_toNat]

end Sys2Proof.Machine
end

section
/-! Clearing the screen (45_display.md R210). -/

namespace Sys2Proof.Machine

/-- Every pixel of a state whose framebuffer is the clear screen is 0. -/
theorem State.pixel_eq_false_of_fb_eq_clearScreen {s : State} (h : s.fb = clearScreen) (r : Fin 32) (c : Fin 64) :
    s.pixel r c = false := by
  have hrow : s.fb[r] = 0 := by rw [h]; exact Vector.getElem_replicate r.isLt
  rw [State.pixel, hrow]
  exact BitVec.getLsbD_zero

theorem exec_cls (s : State) : exec .cls s = .next (s.setFb clearScreen).advance := rfl

/-- Settles O39: the framebuffer is replaced by the clear screen, then PC advances; VF is a register, kept by the frame. -/
theorem clsClearsFramebuffer : Obligations.ClsClearsFramebuffer := by
  unfold Obligations.ClsClearsFramebuffer
  intro s
  refine ⟨_, exec_cls s, ?pixels, ?pc, ?frame⟩
  case pixels => exact State.pixel_eq_false_of_fb_eq_clearScreen rfl
  case pc => rw [State.advance_pc, State.setFb_pc]
  case frame => exact (s.setFb_onlyChanges clearScreen).append (State.advance_onlyChanges _)

end Sys2Proof.Machine
end

section
/-! Reading the delay timer (46_timer_key.md R230). -/

namespace Sys2Proof.Machine

theorem exec_ldVxDt (x : RegIdx) (s : State) : exec (.ldVxDt x) s = .next (s.setReg x s.dt).advance := rfl

/-- Settles O42: the delay timer is read into one register; the timer itself is kept by the frame. -/
theorem ldVxDtReadsDelayTimer : Obligations.LdVxDtReadsDelayTimer := by
  unfold Obligations.LdVxDtReadsDelayTimer
  intro s x
  exact exists_next_of_exec_eq_setReg (exec_ldVxDt x s)

end Sys2Proof.Machine
end

section
/-! The timer tick (60_exceptions.md R264). -/

namespace Sys2Proof.Machine

theorem onlyChanges_refl (s : State) (parts : List Part) : OnlyChanges s s parts :=
  ⟨⟨rfl, rfl, rfl, rfl⟩, fun p _ => agrees_refl s p⟩

/-- A step whose event is a tick ends in the ticked state, the event taken. -/
theorem step_tick {s : State} {rest : List Event} (h : s.inputs = .tick :: rest) :
    step s = .next (tick { s with inputs := rest }) :=
  step_cons h

theorem tick_of_running {s : State} (h : s.halt = none) :
    tick s = (s.setDt (countDown s.dt)).setSt (countDown s.st) :=
  (tick_cases s).elim (fun halted => absurd h halted.1) And.right

theorem tick_of_halted {s : State} (h : s.halt ≠ none) : tick s = s :=
  (tick_cases s).elim And.right fun running => absurd running.1 h

theorem tick_dt_toNat_of_running {s : State} (h : s.halt = none) : (tick s).dt.toNat = s.dt.toNat - 1 := by
  rw [tick_of_running h, State.setSt_dt, State.setDt_dt, countDown_toNat]

theorem tick_st_toNat_of_running {s : State} (h : s.halt = none) : (tick s).st.toNat = s.st.toNat - 1 := by
  rw [tick_of_running h, State.setSt_st, countDown_toNat]

/-- A running machine's tick changes the two timers only. -/
theorem tick_onlyChanges_of_running {s : State} (h : s.halt = none) : OnlyChanges s (tick s) [.delay, .sound] := by
  rw [tick_of_running h]
  exact (s.setDt_onlyChanges (countDown s.dt)).append (State.setSt_onlyChanges _ (countDown s.st))

theorem tick_onlyChanges_of_halted {s : State} (h : s.halt ≠ none) : OnlyChanges s (tick s) [] := by
  rw [tick_of_halted h]
  exact onlyChanges_refl s []

/-- Settles O45: the step is a tick of the state without the event; running, it counts both timers, and halted it is the
identity. -/
theorem tickDecrementsNonzeroTimers : Obligations.TickDecrementsNonzeroTimers := by
  unfold Obligations.TickDecrementsNonzeroTimers
  intro s rest hevent
  refine ⟨fun hrunning => ?running, fun hhalted => ?halted⟩
  case running =>
    exact ⟨_, step_tick hevent, tick_dt_toNat_of_running hrunning, tick_st_toNat_of_running hrunning,
      tick_onlyChanges_of_running hrunning⟩
  case halted => exact ⟨_, step_tick hevent, tick_onlyChanges_of_halted hhalted⟩

end Sys2Proof.Machine
end

section
/-! The decoder and the encoder (30_encoding.md). -/

namespace Sys2Proof

/-! ### Decoding an encoded instruction -/

/-- The two addresses `SYS` does not have are those of `CLS` and `RET` (R77). -/
theorem wf_sys_iff (nnn : Addr12) : (Instr.sys nnn).wf = true ↔ nnn ≠ 0x0E0#12 ∧ nnn ≠ 0x0EE#12 := by
  simp [Instr.wf]

/-- Settles O1, format by format: the fields of the encoded word are the operands and select the instruction's row; the
two addresses `SYS` does not have are what well-formedness excludes (R77). -/
theorem decodeEncodeRoundTrip : Obligations.DecodeEncodeRoundTrip := by
  unfold Obligations.DecodeEncodeRoundTrip
  intro i hwf
  cases i with
  | cls | ret => rfl
  | sys nnn =>
    obtain ⟨hcls, hret⟩ := (wf_sys_iff nnn).1 hwf
    simp [encode, decode, decodeFamily0, hcls, hret]
  | jp | call | ldI | jpV0 => simp [encode, decode]
  | seByte | sneByte | ldByte | addByte | rnd => simp [encode, decode]
  | seReg | sneReg | drw => simp [encode, decode]
  | ldReg | orReg | andReg | xorReg | addReg | subReg | shr | subnReg | shl => simp [encode, decode, decodeFamily8]
  | skp | sknp => simp [encode, decode, decodeFamilyE]
  | ldVxDt | ldVxK | ldDtVx | ldStVx | addI | ldF | ldB | ldMemVx | ldVxMem =>
    simp [encode, decode, decodeFamilyF]

/-! ### The word of a decoded instruction -/

/-- A word put together again from its fields, the literal ones given by their value. -/
theorem formatNNN_of_fieldOp {w : Word} {k : BitVec 4} (hop : fieldOp w = k) : formatNNN k (fieldNNN w) = w :=
  hop ▸ formatNNN_fields w

theorem formatXNN_of_fieldOp {w : Word} {k : BitVec 4} (hop : fieldOp w = k) :
    formatXNN k (fieldX w) (fieldNN w) = w :=
  hop ▸ formatXNN_fields w

theorem formatXYN_of_fieldOp {w : Word} {k : BitVec 4} (hop : fieldOp w = k) :
    formatXYN k (fieldX w) (fieldY w) (fieldN w) = w :=
  hop ▸ formatXYN_fields w

/-- The decoder's last arm is family F: the other fifteen top nibbles have one of their own. -/
theorem nibble_eq_F : ∀ k : BitVec 4, k ∉ [0x0#4, 0x1#4, 0x2#4, 0x3#4, 0x4#4, 0x5#4, 0x6#4, 0x7#4, 0x8#4, 0x9#4, 0xA#4,
    0xB#4, 0xC#4, 0xD#4, 0xE#4] → k = 0xF#4 := by
  decide

/-- `i` is a well-formed instruction whose word is `w`. -/
def EncodesTo (i : Instr) (w : Word) : Prop := i.wf = true ∧ encode i = w

theorem decodeFamily0_encodesTo {w : Word} {i : Instr} (hop : fieldOp w = 0x0#4) (h : decodeFamily0 w = .instr i) :
    EncodesTo i w := by
  have hw := formatNNN_of_fieldOp hop
  unfold decodeFamily0 at h
  split at h
  · next hcls => cases h; exact ⟨rfl, by rw [← hw, hcls]; rfl⟩
  · next hcls =>
    split at h
    · next hret => cases h; exact ⟨rfl, by rw [← hw, hret]; rfl⟩
    · next hret => cases h; exact ⟨(wf_sys_iff _).2 ⟨hcls, hret⟩, hw⟩

theorem decodeFamily8_encodesTo {w : Word} {i : Instr} (hop : fieldOp w = 0x8#4) (h : decodeFamily8 w = .instr i) :
    EncodesTo i w := by
  have hw := formatXYN_of_fieldOp hop
  unfold decodeFamily8 at h
  split at h
  case h_10 => cases h
  all_goals next hn => cases h; rw [hn] at hw; exact ⟨rfl, hw⟩

theorem decodeFamilyE_encodesTo {w : Word} {i : Instr} (hop : fieldOp w = 0xE#4) (h : decodeFamilyE w = .instr i) :
    EncodesTo i w := by
  have hw := formatXNN_of_fieldOp hop
  unfold decodeFamilyE at h
  split at h
  case h_3 => cases h
  all_goals next hnn => cases h; rw [hnn] at hw; exact ⟨rfl, hw⟩

theorem decodeFamilyF_encodesTo {w : Word} {i : Instr} (hop : fieldOp w = 0xF#4) (h : decodeFamilyF w = .instr i) :
    EncodesTo i w := by
  have hw := formatXNN_of_fieldOp hop
  unfold decodeFamilyF at h
  split at h
  case h_10 => cases h
  all_goals next hnn => cases h; rw [hnn] at hw; exact ⟨rfl, hw⟩

/-- Settles O2, top nibble by top nibble: the word is the word of its fields, and the decoder checked the literal ones. -/
theorem encodeDecodeRoundTrip : Obligations.EncodeDecodeRoundTrip := by
  unfold Obligations.EncodeDecodeRoundTrip
  intro w i h
  unfold decode at h
  split at h
  case h_1 hop => exact decodeFamily0_encodesTo hop h
  case h_9 hop => exact decodeFamily8_encodesTo hop h
  case h_15 hop => exact decodeFamilyE_encodesTo hop h
  case h_16 => exact decodeFamilyF_encodesTo (nibble_eq_F _ (by simp_all)) h
  case h_6 hop | h_10 hop =>
    split at h
    · next hn =>
      have hw := formatXYN_of_fieldOp hop
      cases h; rw [hn] at hw; exact ⟨rfl, hw⟩
    · cases h
  case h_2 hop | h_3 hop | h_11 hop | h_12 hop => cases h; exact ⟨rfl, formatNNN_of_fieldOp hop⟩
  case h_14 hop => cases h; exact ⟨rfl, formatXYN_of_fieldOp hop⟩
  all_goals next hop => cases h; exact ⟨rfl, formatXNN_of_fieldOp hop⟩

/-! ### The Unknown words -/

theorem decodeFamily0_ne_unknown (w u : Word) : decodeFamily0 w ≠ .unknown u := by
  unfold decodeFamily0
  split
  · nofun
  · split <;> nofun

/-- The low nibbles of family 8 that select no row (R76), seen from the decoder's nine arms. -/
theorem nibble_notMem_family8_iff : ∀ n : Nibble,
    n ∉ [0x0#4, 0x1#4, 0x2#4, 0x3#4, 0x4#4, 0x5#4, 0x6#4, 0x7#4, 0xE#4] ↔
      n ∈ [0x8#4, 0x9#4, 0xA#4, 0xB#4, 0xC#4, 0xD#4, 0xF#4] := by
  decide

theorem decodeFamily8_eq_unknown_iff (w : Word) :
    decodeFamily8 w = .unknown w ↔ fieldN w ∈ [0x8#4, 0x9#4, 0xA#4, 0xB#4, 0xC#4, 0xD#4, 0xF#4] := by
  rw [← nibble_notMem_family8_iff]
  unfold decodeFamily8
  split <;> simp_all

theorem decodeFamilyE_eq_unknown_iff (w : Word) : decodeFamilyE w = .unknown w ↔ fieldNN w ∉ [0x9E#8, 0xA1#8] := by
  unfold decodeFamilyE
  split <;> simp_all

theorem decodeFamilyF_eq_unknown_iff (w : Word) :
    decodeFamilyF w = .unknown w ↔
      fieldNN w ∉ [0x07#8, 0x0A#8, 0x15#8, 0x18#8, 0x1E#8, 0x29#8, 0x33#8, 0x55#8, 0x65#8] := by
  unfold decodeFamilyF
  split <;> simp_all

/-- Settles O5: the top nibble selects the family, and each family's Unknown words are read off its arms. -/
theorem unknownWordsExactly : Obligations.UnknownWordsExactly := by
  unfold Obligations.UnknownWordsExactly
  intro w
  rw [← decodeFamily8_eq_unknown_iff, ← decodeFamilyE_eq_unknown_iff, ← decodeFamilyF_eq_unknown_iff]
  unfold decode
  split
  case h_1 hop => simp [hop, decodeFamily0_ne_unknown]
  case h_16 => simp [nibble_eq_F (fieldOp w) (by simp_all)]
  all_goals next hop => simp [hop]

/-! ### The opcode map -/

theorem opRow_mem_opcodeRows (i : Instr) : i.opRow ∈ opcodeRows := by
  cases i <;> simp [opcodeRows, rowInstrs, rowInstrs1To10, rowInstrs11To19, rowInstrs20To26, rowInstrs27To35, Instr.opRow]

/-- `word & mask = match` for the word encoded, whatever the instruction (R75). -/
theorem encode_and_mask (i : Instr) : encode i &&& i.opRow.mask = i.opRow.value := by
  cases i with
  | cls | ret => rfl
  | sys | jp | call | ldI | jpV0 => exact Laws.EncodeRow.nnn_row _ _
  | seByte | sneByte | ldByte | addByte | rnd => exact Laws.EncodeRow.xnn_row _ _ _
  | drw => exact Laws.EncodeRow.xyn_row _ _ _ _
  | seReg | sneReg | ldReg | orReg | andReg | xorReg | addReg | subReg | shr | subnReg | shl =>
    exact Laws.EncodeRow.xy_row _ _ _ _
  | skp | sknp | ldVxDt | ldVxK | ldDtVx | ldStVx | addI | ldF | ldB | ldMemVx | ldVxMem =>
    exact Laws.EncodeRow.x_row _ _ _

/-- The word of a well-formed instruction is none its row excludes (R77). -/
theorem encode_notMem_except {i : Instr} (hwf : i.wf = true) : encode i ∉ i.opRow.except := by
  cases i with
  | sys nnn =>
    obtain ⟨hcls, hret⟩ := (wf_sys_iff nnn).1 hwf
    have hinj {a : Addr12} (ha : formatNNN 0x0#4 nnn = formatNNN 0x0#4 a) : nnn = a := by
      simpa using congrArg fieldNNN ha
    simp only [Instr.opRow, List.mem_cons, List.not_mem_nil, or_false, not_or]
    exact ⟨fun h => hcls (hinj (a := 0x0E0#12) h), fun h => hret (hinj (a := 0x0EE#12) h)⟩
  | _ => exact List.not_mem_nil

theorem matchesWord_encode {i : Instr} (hwf : i.wf = true) : i.opRow.matchesWord (encode i) = true :=
  (i.opRow.matchesWord_iff _).2 ⟨encode_and_mask i, encode_notMem_except hwf⟩

/-! The fields of a masked word. -/

theorem fieldOp_and (w m : Word) : fieldOp (w &&& m) = fieldOp w &&& fieldOp m := BitVec.extractLsb'_and
theorem fieldN_and (w m : Word) : fieldN (w &&& m) = fieldN w &&& fieldN m := BitVec.extractLsb'_and
theorem fieldNN_and (w m : Word) : fieldNN (w &&& m) = fieldNN w &&& fieldNN m := BitVec.extractLsb'_and

/-- The rows' masks leave a literal field whole (R75). -/
theorem fieldOp_of_fixed {w m v : Word} (h : w &&& m = v) (hm : fieldOp m = 0xF#4) : fieldOp w = fieldOp v := by
  rw [← h, fieldOp_and, hm]
  exact BitVec.and_allOnes.symm

theorem fieldN_of_fixed {w m v : Word} (h : w &&& m = v) (hm : fieldN m = 0xF#4) : fieldN w = fieldN v := by
  rw [← h, fieldN_and, hm]
  exact BitVec.and_allOnes.symm

theorem fieldNN_of_fixed {w m v : Word} (h : w &&& m = v) (hm : fieldNN m = 0xFF#8) : fieldNN w = fieldNN v := by
  rw [← h, fieldNN_and, hm]
  exact BitVec.and_allOnes.symm

/-- An Unknown word differs from every row in a literal field: in the top nibble, or in the low nibble or byte. -/
theorem matchesWord_eq_false_of_unknown {w : Word} (h : decode w = .unknown w) (i : Instr) :
    i.opRow.matchesWord w = false := by
  have hsets := (unknownWordsExactly w).1 h
  refine Bool.eq_false_iff.2 fun hmatch => ?_
  have hmask := ((i.opRow.matchesWord_iff w).1 hmatch).1
  cases i with
  | cls | ret | sys | jp | call | ldI | jpV0 | seByte | sneByte | ldByte | addByte | rnd | drw =>
    simp only [Instr.opRow] at hmask
    have hop := fieldOp_of_fixed hmask (by decide)
    simp only [fieldOp, BitVec.reduceExtractLsb'] at hop
    simp [fieldOp, hop] at hsets
  | seReg | sneReg | ldReg | orReg | andReg | xorReg | addReg | subReg | shr | subnReg | shl =>
    simp only [Instr.opRow] at hmask
    have hop := fieldOp_of_fixed hmask (by decide)
    have hn := fieldN_of_fixed hmask (by decide)
    simp only [fieldOp, fieldN, BitVec.reduceExtractLsb'] at hop hn
    simp [fieldOp, fieldN, hop, hn] at hsets
  | skp | sknp | ldVxDt | ldVxK | ldDtVx | ldStVx | addI | ldF | ldB | ldMemVx | ldVxMem =>
    simp only [Instr.opRow] at hmask
    have hop := fieldOp_of_fixed hmask (by decide)
    have hnn := fieldNN_of_fixed hmask (by decide)
    simp only [fieldOp, fieldNN, BitVec.reduceExtractLsb'] at hop hnn
    simp [fieldOp, fieldNN, hop, hnn] at hsets

/-- Settles O3, by the round trip and the list of Unknown words: a decoded word is the word encoded for its instruction,
which has its row's literal bits; an Unknown word has other bits where a row is literal. -/
theorem decodeAgreesWithOpcodeMap : Obligations.DecodeAgreesWithOpcodeMap := by
  unfold Obligations.DecodeAgreesWithOpcodeMap
  refine ⟨fun w i h => ?instr, fun w u h => ⟨decode_unknown_eq h, fun r hr => ?unknown⟩⟩
  case instr =>
    obtain ⟨hwf, hw⟩ := encodeDecodeRoundTrip w i h
    exact ⟨opRow_mem_opcodeRows i, hw ▸ matchesWord_encode hwf⟩
  case unknown =>
    obtain ⟨i, -, rfl⟩ := List.mem_map.1 hr
    exact matchesWord_eq_false_of_unknown (decode_unknown_eq h ▸ h) i

/-- Settles O6: the decoder computes each of the worked pairs of bytes. -/
theorem workedDecodings : Obligations.WorkedDecodings := by
  unfold Obligations.WorkedDecodings
  decide

end Sys2Proof
end

section
/-! Memory transfers, and the instructions that raise (44_index_memory.md, 45_display.md, 60_exceptions.md). -/

namespace Sys2Proof.Machine

/-! ### The four memory transfers, equation by equation (R54, R254) -/

theorem exec_ldB_inRange {s : State} (h : InRange s 3) (x : RegIdx) :
    exec (.ldB x) s = .next (s.store ((List.range 3).map (itemCell s)) (bcdDigits (s.reg x))).advance := by
  simp only [exec, execLdB, span_inRange h]

theorem exec_ldB_outOfRange {s : State} (h : ¬ InRange s 3) (x : RegIdx) :
    exec (.ldB x) s = .next (s.raise (.memoryOutOfRange (firstOutOfRange s))) := by
  simp only [exec, execLdB, (span_outOfRange h).2]

theorem exec_ldMemVx_inRange {s : State} {x : RegIdx} (h : InRange s (x.toNat + 1)) :
    exec (.ldMemVx x) s = .next (s.store ((List.range (x.toNat + 1)).map (itemCell s)) (s.regsUpTo x)).advance := by
  simp only [exec, execLdMemVx, span_inRange h]

theorem exec_ldMemVx_outOfRange {s : State} {x : RegIdx} (h : ¬ InRange s (x.toNat + 1)) :
    exec (.ldMemVx x) s = .next (s.raise (.memoryOutOfRange (firstOutOfRange s))) := by
  simp only [exec, execLdMemVx, (span_outOfRange h).2]

theorem exec_ldVxMem_inRange {s : State} {x : RegIdx} (h : InRange s (x.toNat + 1)) :
    exec (.ldVxMem x) s =
      .next (s.setRegs 0 (s.load ((List.range (x.toNat + 1)).map (itemCell s)))).advance := by
  simp only [exec, execLdVxMem, span_inRange h]

theorem exec_ldVxMem_outOfRange {s : State} {x : RegIdx} (h : ¬ InRange s (x.toNat + 1)) :
    exec (.ldVxMem x) s = .next (s.raise (.memoryOutOfRange (firstOutOfRange s))) := by
  simp only [exec, execLdVxMem, (span_outOfRange h).2]

/-- The bytes of a sprite of `n` rows at I. -/
def spriteBytes (s : State) (n : Nibble) : List Byte := s.load ((List.range n.toNat).map (itemCell s))

theorem exec_drw_inRange {s : State} {n : Nibble} (h : InRange s n.toNat) (x y : RegIdx) :
    exec (.drw x y n) s =
      .next ((s.setFb (s.drawSprite x y (spriteBytes s n)).1).setFlag (s.drawSprite x y (spriteBytes s n)).2).advance := by
  simp only [exec, execDrw, span_inRange h, spriteBytes]

theorem exec_drw_outOfRange {s : State} {n : Nibble} (h : ¬ InRange s n.toNat) (x y : RegIdx) :
    exec (.drw x y n) s = .next (s.raise (.memoryOutOfRange (firstOutOfRange s))) := by
  simp only [exec, execDrw, (span_outOfRange h).2]

/-! ### Why an instruction raises (R250 to R254) -/

/-- An instruction that keeps HALT does not halt a running machine. -/
theorem halt_eq_none_of_halt_kept {i : Instr} {s t u : State} (h : exec i s = .next t) (hrunning : s.halt = none)
    (hu : exec i s = .next u) (hkept : u.halt = s.halt) : t.halt = none := by
  cases hu.symm.trans h
  exact hkept.trans hrunning

/-- The memory transfers raise where their bytes are out of range, and there alone. -/
theorem outOfRange_of_transfer_halts {i : Instr} {s t : State} (h : exec i s = .next t) (hrunning : s.halt = none)
    (hhalted : t.halt ≠ none) (hi : (∃ x y n, i = .drw x y n) ∨ ∃ x, i = .ldB x ∨ i = .ldMemVx x ∨ i = .ldVxMem x) :
    ¬ InRange s (transferLength i) ∧ t = s.raise (.memoryOutOfRange (firstOutOfRange s)) := by
  have hkeeps {u : State} (hu : exec i s = .next u) (hkept : u.halt = s.halt) : False :=
    hhalted (halt_eq_none_of_halt_kept h hrunning hu hkept)
  have hraises {u : State} (hu : exec i s = .next u) : t = u := Host.Outcome.next.inj (h.symm.trans hu)
  obtain ⟨x, y, n, rfl⟩ | ⟨x, rfl | rfl | rfl⟩ := hi
  · have hout : ¬ InRange s n.toNat := fun hr => hkeeps (exec_drw_inRange hr x y) rfl
    exact ⟨hout, hraises (exec_drw_outOfRange hout x y)⟩
  · have hout : ¬ InRange s 3 := fun hr => hkeeps (exec_ldB_inRange hr x) rfl
    exact ⟨hout, hraises (exec_ldB_outOfRange hout x)⟩
  · have hout : ¬ InRange s (x.toNat + 1) := fun hr => hkeeps (exec_ldMemVx_inRange hr) rfl
    exact ⟨hout, hraises (exec_ldMemVx_outOfRange hout)⟩
  · have hout : ¬ InRange s (x.toNat + 1) := fun hr => hkeeps (exec_ldVxMem_inRange hr) (State.setRegs_halt s 0 _)
    exact ⟨hout, hraises (exec_ldVxMem_outOfRange hout)⟩

/-- Settles O48: only the instructions of section 8 can raise; each is then in the one case of its equations that does. -/
theorem onlyTheListedInstructionsRaise : Obligations.OnlyTheListedInstructionsRaise := by
  unfold Obligations.OnlyTheListedInstructionsRaise
  intro i s t h hrunning hhalted
  have hkeeps {u : State} (hu : exec i s = .next u) (hkept : u.halt = s.halt) : False :=
    hhalted (halt_eq_none_of_halt_kept h hrunning hu hkept)
  obtain ⟨hcan, -⟩ := raises_of_halt_ne h fun hsame => hhalted (hsame.trans hrunning)
  obtain rfl | ⟨nnn, rfl | rfl⟩ | htransfer := hcan
  · by_cases hsp : s.sp = 0
    · cases h.symm.trans (exec_ret_empty hsp)
      exact .inr (.inl ⟨rfl, hsp, rfl⟩)
    · obtain ⟨k, hk⟩ := Fin.exists_succ_eq_of_ne_zero hsp
      exact (hkeeps (exec_ret_pop hk.symm) rfl).elim
  · by_cases hsp : s.sp = 16
    · cases h.symm.trans (exec_call_full hsp nnn)
      exact .inl ⟨rfl, hsp, nnn, rfl⟩
    · obtain ⟨k, hk⟩ := Fin.exists_castSucc_eq.2 hsp
      exact (hkeeps (exec_call_push hk.symm nnn) rfl).elim
  · obtain ⟨hstrict, hu⟩ | ⟨-, hu⟩ := execUnknown_cases (formatNNN 0x0#4 nnn) s
    · cases h.symm.trans hu
      exact .inr (.inr (.inl ⟨hstrict, nnn, rfl, rfl⟩))
    · exact (hkeeps hu rfl).elim
  · obtain ⟨hout, rfl⟩ := outOfRange_of_transfer_halts h hrunning hhalted htransfer
    exact .inr (.inr (.inr ⟨(span_outOfRange hout).1, rfl, hout, htransfer⟩))

end Sys2Proof.Machine
end

section
/-! Reset and the loader (70_reset_and_hazards.md R300 to R303). -/

namespace Sys2Proof.Machine

/-- The state Reset leaves: freshly constructed, the image copied in (R300, R302). -/
def State.loaded (s : State) (image : List Byte) : State :=
  { s.fresh with mem := s.fresh.mem.writeFrom loadAddr image }

theorem resetEvent_empty {image : List Byte} (h : image.length = 0) (s : State) :
    resetEvent image s = .fault (.loadError .empty) := by
  simp [resetEvent, State.loadImage, h]

theorem resetEvent_tooLarge {image : List Byte} (h : maxProgram < image.length) (s : State) :
    resetEvent image s = .fault (.loadError .tooLarge) := by
  have hpos : image.length ≠ 0 := by omega
  simp only [resetEvent, State.loadImage, if_neg hpos, if_pos h]

theorem resetEvent_loaded {image : List Byte} (hpos : image.length ≠ 0) (hmax : image.length ≤ maxProgram) (s : State) :
    resetEvent image s = .next (s.loaded image) := by
  simp only [resetEvent, State.loadImage, if_neg hpos, if_neg (Nat.not_lt.2 hmax)]
  rfl

/-- Whether Reset ends in a state, and in which. -/
theorem eq_loaded_of_resetEvent {image : List Byte} {s t : State} (h : resetEvent image s = .next t) :
    image.length ≤ maxProgram ∧ t = s.loaded image := by
  by_cases hpos : image.length = 0
  · rw [resetEvent_empty hpos] at h
    cases h
  · by_cases hmax : image.length ≤ maxProgram
    · rw [resetEvent_loaded hpos hmax] at h
      cases h
      exact ⟨hmax, rfl⟩
    · rw [resetEvent_tooLarge (Nat.lt_of_not_le hmax)] at h
      cases h

theorem loaded_mem_wf {image : List Byte} (hmax : image.length ≤ maxProgram) (s : State) :
    (s.loaded image).mem.wf = true :=
  Memory.writeFrom_wf image (Memory.fresh_wf s.cfg.font) (by simp only [loadAddr, maxProgram, memSize] at *; omega)

end Sys2Proof.Machine
end

section
/-! The invariant (10_state.md R38, 60_exceptions.md R256). -/

namespace Sys2Proof.Machine

/-! ### What the invariant depends on -/

/-- Taking an event touches no part the invariant speaks of. -/
theorem inv_takeEvent {s : State} (h : s.Inv) : s.takeEvent.2.Inv := by
  unfold State.takeEvent
  split <;> exact ⟨h.memory, h.waiting, h.pcBound, h.halted⟩

/-- The cycle's arguments are no part the invariant speaks of. -/
theorem inv_latch {s : State} (h : s.Inv) (k : Word) (b : Byte) : (s.latch k b).Inv :=
  ⟨h.memory, h.waiting, h.pcBound, h.halted⟩

/-- Nor are the timers, which a tick writes. -/
theorem inv_tick {s : State} (h : s.Inv) : (tick s).Inv := by
  obtain ⟨-, ht⟩ | ⟨-, ht⟩ := tick_cases s <;> rw [ht]
  · exact h
  · exact ⟨h.memory, h.waiting, h.pcBound, h.halted⟩

/-- A raise keeps every part; what is to be shown is its cause, in the state that raised. -/
theorem inv_raise {s : State} {f : FatalCondition} (h : s.Inv) (hcause : HaltCause s f) : (s.raise f).Inv :=
  ⟨h.memory, h.waiting, h.pcBound, fun _ hg => Option.some.inj hg ▸ hcause⟩

/-! ### Reset -/

theorem inv_loaded {image : List Byte} (hmax : image.length ≤ maxProgram) (s : State) : (s.loaded image).Inv where
  memory := loaded_mem_wf hmax s
  waiting := nofun
  pcBound := fun _ => ⟨show (0x0200#16).toNat ≤ 0x10FE by decide, fun k => by simp [State.loaded, State.fresh, State.reset]⟩
  halted := nofun

/-! ### Memory stays canonical -/

/-- An instruction leaves memory as it is or stores bytes in cells of it. -/
theorem exec_keeps_mem_wf {i : Instr} {s t : State} (h : exec i s = .next t) (hm : s.mem.wf = true) :
    t.mem.wf = true := by
  have hcells (n : Nat) : ∀ c ∈ (List.range n).map (itemCell s), c < memSize := by
    simp [itemCell_lt]
  cases i with
  | ldB x =>
    by_cases hr : InRange s 3
    · cases h.symm.trans (exec_ldB_inRange hr x)
      exact State.store_wf _ _ hm (hcells 3)
    · cases h.symm.trans (exec_ldB_outOfRange hr x)
      exact hm
  | ldMemVx x =>
    by_cases hr : InRange s (x.toNat + 1)
    · cases h.symm.trans (exec_ldMemVx_inRange hr)
      exact State.store_wf _ _ hm (hcells _)
    · cases h.symm.trans (exec_ldMemVx_outOfRange hr)
      exact hm
  | ldVxMem x =>
    by_cases hr : InRange s (x.toNat + 1)
    · cases h.symm.trans (exec_ldVxMem_inRange hr)
      rwa [State.advance_mem, State.setRegs_mem]
    · cases h.symm.trans (exec_ldVxMem_outOfRange hr)
      exact hm
  | drw x y n =>
    by_cases hr : InRange s n.toNat
    · cases h.symm.trans (exec_drw_inRange hr x y)
      exact hm
    · cases h.symm.trans (exec_drw_outOfRange hr x y)
      exact hm
  | ret =>
    by_cases hsp : s.sp = 0
    · cases h.symm.trans (exec_ret_empty hsp)
      exact hm
    · obtain ⟨k, hk⟩ := Fin.exists_succ_eq_of_ne_zero hsp
      cases h.symm.trans (exec_ret_pop hk.symm)
      exact hm
  | call nnn =>
    by_cases hsp : s.sp = 16
    · cases h.symm.trans (exec_call_full hsp nnn)
      exact hm
    · obtain ⟨k, hk⟩ := Fin.exists_castSucc_eq.2 hsp
      cases h.symm.trans (exec_call_push hk.symm nnn)
      exact hm
  | sys nnn =>
    obtain ⟨-, hu⟩ | ⟨-, hu⟩ := execUnknown_cases (formatNNN 0x0#4 nnn) s <;>
      cases h.symm.trans hu <;> exact hm
  | _ => cases h; exact hm

/-! ### PC never wraps (R24) -/

/-- The bound on PC and the return addresses under the fault policy. -/
def PcBounded (s : State) : Prop := s.pc.toNat ≤ 0x10FE ∧ ∀ k : Fin 16, s.stack[k].toNat ≤ 0x1000

theorem toNat_zextAddr (nnn : Addr12) : (zextAddr nnn).toNat = nnn.toNat := BitVec.toNat_setWidth_of_le (by decide)

/-- From a PC that was fetched from, every control transfer stays in bounds. -/
theorem transfer_keeps_pcBounded {i : Instr} {s t : State} (h : exec i s = .next t) (hi : IsTransfer i)
    (hpc : s.pc.toNat ≤ 0xFFE) (hstack : ∀ k : Fin 16, s.stack[k].toNat ≤ 0x1000) : PcBounded t := by
  obtain rfl | ⟨nnn, rfl | rfl | rfl⟩ := hi
  · by_cases hsp : s.sp = 0
    · cases h.symm.trans (exec_ret_empty hsp)
      exact ⟨show s.pc.toNat ≤ 0x10FE by omega, hstack⟩
    · obtain ⟨k, hk⟩ := Fin.exists_succ_eq_of_ne_zero hsp
      cases h.symm.trans (exec_ret_pop hk.symm)
      exact ⟨(hstack k).trans (by decide), hstack⟩
  · cases h
    have hnnn := toNat_zextAddr nnn
    exact ⟨show (zextAddr nnn).toNat ≤ 0x10FE by omega, hstack⟩
  · by_cases hsp : s.sp = 16
    · cases h.symm.trans (exec_call_full hsp nnn)
      exact ⟨show s.pc.toNat ≤ 0x10FE by omega, hstack⟩
    · obtain ⟨k, hk⟩ := Fin.exists_castSucc_eq.2 hsp
      cases h.symm.trans (exec_call_push hk.symm nnn)
      have hnnn := toNat_zextAddr nnn
      have hret : (s.pc + 2).toNat ≤ 0x1000 := by bv_omega
      refine ⟨show (zextAddr nnn).toNat ≤ 0x10FE by omega, fun j => ?_⟩
      show ((s.stack.set k.val (s.pc + 2) k.isLt)[j.val]).toNat ≤ 0x1000
      rw [Vector.getElem_set]
      split
      · exact hret
      · exact hstack j
  · cases h
    have hnnn := toNat_zextAddr nnn
    have hbyte := zextByte_toNat (s.reg 0)
    have hsum : (zextAddr nnn + zextByte (s.reg 0)).toNat ≤ 0x10FE := by
      rw [BitVec.toNat_add]
      omega
    exact ⟨hsum, hstack⟩

/-- From a PC that was fetched from, every instruction stays in bounds: all others advance, skip or stay. -/
theorem exec_keeps_pcBounded {i : Instr} {s t : State} (h : exec i s = .next t) (hpc : s.pc.toNat ≤ 0xFFE)
    (hstack : ∀ k : Fin 16, s.stack[k].toNat ≤ 0x1000) : PcBounded t := by
  by_cases hi : IsTransfer i
  · exact transfer_keeps_pcBounded h hi hpc hstack
  · have hsame : Agrees s t .stack := by_contra fun hd =>
      hi ((stack_mem_partsWritten (mem_partsWritten_of_not_agrees h (by simp) hd)).imp_right
        fun ⟨nnn, hcall⟩ => ⟨nnn, .inr (.inl hcall)⟩)
    refine ⟨?_, fun k => (hsame.2 k).symm ▸ hstack k⟩
    by_cases hd : Agrees s t .pc
    · rw [show t.pc = s.pc from hd]
      omega
    · obtain ⟨-, hadvance | htransfer | ⟨hskip, -⟩⟩ := pc_cases_of_not_agrees h hd
      · rw [hadvance]; bv_omega
      · exact absurd htransfer hi
      · rw [hskip]; bv_omega

/-! ### A wait stands at its instruction (R38) -/

/-- An instruction that leaves a machine waiting is the `LD Vx, K` at PC, and PC stays. -/
theorem waits_of_exec {i : Instr} {s t : State} {r : RegIdx} (h : exec i s = .next t) (hs : s.wait = none)
    (ht : t.wait = some r) : i = .ldVxK r ∧ fetch t = fetch s := by
  have hd : ¬ Agrees s t .wait := fun hsame => by
    rw [show t.wait = s.wait from hsame, hs] at ht
    cases ht
  obtain ⟨x, rfl⟩ := wait_mem_partsWritten (mem_partsWritten_of_not_agrees h (by simp) hd)
  cases h
  cases ht
  exact ⟨rfl, rfl⟩

/-! ### A halt shows its cause (R250 to R254) -/

theorem haltCause_of_exec {i : Instr} {s : State} {w : Word} {f : FatalCondition} (hs : s.halt = none)
    (hfetch : fetch s = .ok w) (hdecode : decode w = .instr i) (h : exec i s = .next (s.raise f)) : HaltCause s f := by
  obtain ⟨hf, hsp, nnn, rfl⟩ | ⟨hf, hsp, rfl⟩ | ⟨hstrict, nnn, rfl, hf⟩ | ⟨hfault, hf, hout, -⟩ :=
    onlyTheListedInstructionsRaise i s _ h hs (by simp) <;> cases hf
  · exact ⟨hsp, w, nnn, hfetch, hdecode⟩
  · exact ⟨hsp, w, hfetch, hdecode⟩
  · have hw := (encodeDecodeRoundTrip w _ hdecode).2
    exact ⟨hstrict, hw ▸ hfetch, .inr ⟨nnn, hw ▸ hdecode⟩⟩
  · exact ⟨hfault, .inr ⟨w, i, hfetch, hdecode, hout, rfl⟩⟩

theorem haltCause_of_execUnknown {s : State} {w : Word} {f : FatalCondition} (hs : s.halt = none)
    (hfetch : fetch s = .ok w) (hdecode : decode w = .unknown w) (h : execUnknown w s = .next (s.raise f)) :
    HaltCause s f := by
  obtain ⟨hstrict, hu⟩ | ⟨-, hu⟩ := execUnknown_cases w s
  · have hf := congrArg State.halt (Host.Outcome.next.inj (hu.symm.trans h))
    cases hf
    exact ⟨hstrict, hfetch, .inl hdecode⟩
  · have hf := congrArg State.halt (Host.Outcome.next.inj (hu.symm.trans h))
    rw [State.advance_halt, State.emit_halt, hs] at hf
    cases hf

/-- Whatever the word, a raise shows its cause. -/
theorem haltCause_of_execWord {s : State} {w : Word} {f : FatalCondition} (hs : s.halt = none)
    (hfetch : fetch s = .ok w) (h : execWord w s = .next (s.raise f)) : HaltCause s f := by
  cases hdecode : decode w with
  | instr i => exact haltCause_of_exec hs hfetch hdecode (execWord_instr hdecode s ▸ h)
  | unknown u =>
    obtain rfl := decode_unknown_eq hdecode
    exact haltCause_of_execUnknown hs hfetch hdecode (execWord_unknown hdecode s ▸ h)

/-! ### A cycle keeps the invariant -/

/-- The word at PC executed, and not raising. -/
theorem inv_of_execWord {s t : State} {w : Word} (hinv : s.Inv) (hwait : s.wait = none) (hfetch : fetch s = .ok w)
    (h : execWord w s = .next t) (ht : t.halt = none) : t.Inv := by
  obtain ⟨_, ht', hcfg, -⟩ := execWord_next w s
  cases ht'.symm.trans h
  have hpc (hp : t.cfg.oobPolicy = .fault) := fetch_pc_le hfetch (hcfg ▸ hp)
  have hstack (hp : t.cfg.oobPolicy = .fault) := (hinv.pcBound (hcfg ▸ hp)).2
  have hhalted : ∀ f, t.halt = some f → HaltCause t f := fun f hf => nomatch ht.symm.trans hf
  cases hdecode : decode w with
  | instr i =>
    rw [execWord_instr hdecode] at h
    refine ⟨exec_keeps_mem_wf h hinv.memory, fun r hr => ?_, fun hp => exec_keeps_pcBounded h (hpc hp) (hstack hp), hhalted⟩
    obtain ⟨rfl, hsame⟩ := waits_of_exec h hwait hr
    exact ⟨w, hsame.trans hfetch, hdecode⟩
  | unknown u =>
    rw [execWord_unknown hdecode] at h
    obtain ⟨-, hu⟩ | ⟨-, hu⟩ := execUnknown_cases u s <;> cases hu.symm.trans h
    · cases ht
    · refine ⟨hinv.memory, fun r hr => ?_, fun hp => ⟨?_, hstack hp⟩, hhalted⟩
      · cases hwait.symm.trans hr
      · have := hpc hp
        rw [State.advance_pc, State.emit_pc]
        bv_omega

/-- A waiting machine's cycle: it waits on, or it advances past its `LD Vx, K`. -/
theorem inv_waitCycle {s : State} {r : RegIdx} (hinv : s.Inv) (hs : s.halt = none) (hwait : s.wait = some r)
    (edges : Word) : (s.waitCycle r edges).Inv := by
  obtain ⟨-, h⟩ | ⟨k, -, h⟩ := waitCycle_cases s r edges <;> rw [h]
  · exact hinv
  · obtain ⟨w, hfetch, -⟩ := hinv.waiting r hwait
    refine ⟨hinv.memory, nofun, fun hp => ⟨?_, (hinv.pcBound hp).2⟩, fun f hf => nomatch hs.symm.trans hf⟩
    have hpc := fetch_pc_le hfetch hp
    rw [State.setWait_pc, State.advance_pc, State.setReg_pc]
    bv_omega

theorem inv_cycle {s t : State} {k : Word} {b : Byte} (hinv : s.Inv) (h : cycle k b s = .next t) : t.Inv := by
  obtain ⟨-, hc⟩ | ⟨r, hs, hwait, hc⟩ | ⟨f, hs, hwait, hfetch, hc⟩ | ⟨w, f, hs, hwait, hfetch, hexec, hc⟩ |
    ⟨w, u, hs, hwait, hfetch, hexec, hu, hc⟩ := cycle_cases k b s <;> cases hc.symm.trans h
  · exact hinv
  · exact inv_waitCycle (inv_latch hinv k b) hs hwait _
  · obtain ⟨hp, hpc, rfl⟩ := fetch_error hfetch
    exact inv_raise hinv ⟨hp, .inl ⟨hpc, rfl⟩⟩
  · exact inv_raise hinv (haltCause_of_execWord (s := s.latch k b) hs hfetch hexec)
  · exact inv_of_execWord (inv_latch hinv k b) hwait hfetch hexec hu

/-- Settles O57, event by event: Reset establishes the invariant, a tick writes none of its parts, and a cycle keeps it. -/
theorem stepKeepsInvariant : Obligations.StepKeepsInvariant := by
  unfold Obligations.StepKeepsInvariant
  intro s t hinv hstep
  have htaken := inv_takeEvent hinv
  unfold step handle at hstep
  split at hstep
  · obtain ⟨hmax, rfl⟩ := eq_loaded_of_resetEvent hstep
    exact inv_loaded hmax _
  · exact inv_cycle htaken hstep
  · cases hstep
    exact inv_tick htaken

end Sys2Proof.Machine
end

section
/-! The fetch, and a step whose event is a cycle (40_cycle.md, 60_exceptions.md section 2). -/

namespace Sys2Proof.Machine

/-! ### The fetch (R103) -/

theorem fetch_unfetchable {s : State} (hp : s.cfg.oobPolicy = .fault) (hpc : 0xFFE < s.pc.toNat) :
    fetch s = .error (.memoryOutOfRange s.pc) :=
  if_pos ⟨hp, by omega⟩

theorem fetch_word {s : State} (h : s.cfg.oobPolicy = .wrap ∨ s.pc.toNat ≤ 0xFFE) :
    fetch s = .ok (wordOfBytes (s.mem.read (s.pc.toNat % memSize)) (s.mem.read ((s.pc.toNat + 1) % memSize))) := by
  refine if_neg fun ⟨hp, hpc⟩ => ?_
  obtain hwrap | hle := h
  · cases hp.symm.trans hwrap
  · omega

theorem wordOfBytes_high (a b : Byte) : (wordOfBytes a b).extractLsb' 8 8 = a := BitVec.extractLsb'_append_eq_left
theorem wordOfBytes_low (a b : Byte) : (wordOfBytes a b).extractLsb' 0 8 = b := BitVec.extractLsb'_append_eq_right

/-- Settles O7: the two branches of the fetch, and the bytes of a word. -/
theorem fetchWordOrRangeFault : Obligations.FetchWordOrRangeFault := by
  unfold Obligations.FetchWordOrRangeFault
  exact fun s => ⟨fetch_unfetchable, fun h => ⟨_, fetch_word h, wordOfBytes_high _ _, wordOfBytes_low _ _⟩⟩

/-! ### A step whose event is a cycle (R100) -/

/-- The state an event finds: the event itself is taken, `rest` is still to come. -/
def State.withInputs (s : State) (rest : List Event) : State := { s with inputs := rest }

section
variable {s : State} {k : Word} {b : Byte} {rest : List Event} (hevent : s.inputs = .cycle k b :: rest)
include hevent

theorem step_cycle : step s = cycle k b (s.withInputs rest) := step_cons hevent

theorem step_cycle_waiting {r : RegIdx} (hs : s.halt = none) (hwait : s.wait = some r) :
    step s = .next (((s.withInputs rest).latch k b).waitCycle r (keyEdges s.keys k)) :=
  (step_cycle hevent).trans (cycle_waiting (s := s.withInputs rest) hs hwait k b)

theorem step_cycle_unfetchable {f : FatalCondition} (hs : s.halt = none) (hwait : s.wait = none)
    (hfetch : fetch s = .error f) : step s = .next ((s.withInputs rest).raise f) :=
  (step_cycle hevent).trans (cycle_unfetchable (s := s.withInputs rest) hs hwait hfetch k b)

theorem step_cycle_fetched {w : Word} (hs : s.halt = none) (hwait : s.wait = none) (hfetch : fetch s = .ok w) :
    step s = commit (s.withInputs rest) (execWord w ((s.withInputs rest).latch k b)) :=
  (step_cycle hevent).trans (cycle_fetched (s := s.withInputs rest) hs hwait hfetch k b)

end

/-- Settles O8: the cycle commits what `exec` gives on the refreshed state. -/
theorem stepRunsDecodedInstruction : Obligations.StepRunsDecodedInstruction := by
  unfold Obligations.StepRunsDecodedInstruction
  intro s k b rest w i hevent hs hwait hfetch hdecode
  obtain ⟨t, hexec, -⟩ := exec_next i ((s.withInputs rest).latch k b)
  have hstep := step_cycle_fetched hevent hs hwait hfetch
  rw [execWord_instr hdecode, hexec] at hstep
  exact ⟨t, hexec, fun ht => hstep.trans (commit_ok ht), fun f hf => hstep.trans (commit_raise hf)⟩

/-- Settles O9: the fetch is out of range, and the cycle raises what it answers. -/
theorem stepRaisesOnFetchOutOfRange : Obligations.StepRaisesOnFetchOutOfRange := by
  unfold Obligations.StepRaisesOnFetchOutOfRange
  intro s k b rest hevent hs hwait hp hpc
  exact ⟨_, step_cycle_unfetchable hevent hs hwait (fetch_unfetchable hp hpc), State.raise_raises _ _⟩

/-- Settles O10: the cycle commits what `execUnknown` gives on the refreshed state, under each policy. -/
theorem stepHandlesUnknownWord : Obligations.StepHandlesUnknownWord := by
  unfold Obligations.StepHandlesUnknownWord
  intro s k b rest w hevent hs hwait hfetch hdecode
  have hstep := step_cycle_fetched hevent hs hwait hfetch
  rw [execWord_unknown hdecode] at hstep
  obtain ⟨hpolicy, hu⟩ | ⟨hpolicy, hu⟩ := execUnknown_cases w ((s.withInputs rest).latch k b) <;> rw [hu] at hstep
  · exact ⟨fun _ => ⟨_, hstep.trans (commit_raise rfl), State.raise_raises _ _⟩,
      fun hlenient => nomatch hpolicy.symm.trans hlenient⟩
  · exact ⟨fun hstrict => (nomatch hpolicy.symm.trans hstrict), fun _ => ⟨_, hstep.trans (commit_ok hs), rfl, rfl,
      ((State.emit_onlyChanges _ _).append (State.advance_onlyChanges _)).mono (by simp)⟩⟩

/-! ### The frames of the wait branch and the tick -/

theorem OnlyChanges.inputs {s t : State} {ps : List Part} (h : OnlyChanges s t ps) : t.inputs = s.inputs := h.1.2.2.1

theorem OnlyChanges.cfg {s t : State} {ps : List Part} (h : OnlyChanges s t ps) : t.cfg = s.cfg := h.1.1

/-- The wait branch writes the register, PC and WAIT at most (R102). -/
theorem State.waitCycle_onlyChanges (s : State) (r : RegIdx) (edges : Word) :
    OnlyChanges s (s.waitCycle r edges) [.regs, .pc, .wait] := by
  obtain ⟨-, h⟩ | ⟨k, -, h⟩ := waitCycle_cases s r edges <;> rw [h]
  · exact onlyChanges_refl s _
  · exact ((s.setReg_onlyChanges r _).append (State.advance_onlyChanges _)).append (State.setWait_onlyChanges _ none)

/-- A tick writes the timers at most (R264). -/
theorem tick_onlyChanges (s : State) : OnlyChanges s (tick s) [.delay, .sound] := by
  by_cases h : s.halt = none
  · exact tick_onlyChanges_of_running h
  · exact (tick_onlyChanges_of_halted h).mono (by simp)

/-! ### Every event is taken and ends (R10, R107) -/

theorem cycle_next (k : Word) (b : Byte) (s : State) : ∃ t, cycle k b s = .next t ∧ t.inputs = s.inputs := by
  obtain ⟨-, h⟩ | ⟨r, -, -, h⟩ | ⟨f, -, -, -, h⟩ | ⟨w, f, -, -, -, -, h⟩ | ⟨w, t, -, -, -, hexec, -, h⟩ :=
    cycle_cases k b s
  · exact ⟨_, h, rfl⟩
  · exact ⟨_, h, (State.waitCycle_onlyChanges _ r _).inputs⟩
  · exact ⟨_, h, rfl⟩
  · exact ⟨_, h, rfl⟩
  · obtain ⟨t', ht', -, -, hinputs, -⟩ := execWord_next w (s.latch k b)
    cases ht'.symm.trans hexec
    exact ⟨_, h, hinputs⟩

/-- Settles O11, event by event. -/
theorem cyclesAndTicksAlwaysComplete : Obligations.CyclesAndTicksAlwaysComplete := by
  unfold Obligations.CyclesAndTicksAlwaysComplete
  intro s e rest hevent he
  rw [step_cons hevent]
  cases e with
  | reset image => exact absurd rfl (he image)
  | cycle k b => exact cycle_next k b (s.withInputs rest)
  | tick => exact ⟨_, rfl, (tick_onlyChanges (s.withInputs rest)).inputs⟩

/-- Settles O13: neither a cycle nor a tick of a halted machine does anything. -/
theorem haltIsAbsorbing : Obligations.HaltIsAbsorbing := by
  unfold Obligations.HaltIsAbsorbing
  intro s e rest hevent hs he
  rw [step_cons hevent]
  cases e with
  | reset image => exact absurd rfl (he image)
  | cycle k b => exact cycle_halted (s := s.withInputs rest) hs k b
  | tick => exact congrArg Host.Outcome.next (tick_of_halted (s := s.withInputs rest) hs)

/-! ### A halt is precise (R256) -/

theorem State.waitCycle_halt (s : State) (r : RegIdx) (edges : Word) : (s.waitCycle r edges).halt = s.halt :=
  (s.waitCycle_onlyChanges r edges).2 .halt (by simp)

theorem tick_halt (s : State) : (tick s).halt = s.halt := (tick_onlyChanges s).2 .halt (by simp)

/-- A cycle that halts a running machine raises on the state it found. -/
theorem eq_raise_of_cycle_halts {s t : State} {k : Word} {b : Byte} {f : FatalCondition} (hs : s.halt = none)
    (h : cycle k b s = .next t) (ht : t.halt = some f) : t = s.raise f := by
  obtain ⟨hne, -⟩ | ⟨r, -, -, hc⟩ | ⟨g, -, -, -, hc⟩ | ⟨w, g, -, -, -, -, hc⟩ | ⟨w, u, -, -, -, -, hu, hc⟩ :=
    cycle_cases k b s
  · exact absurd hs hne
  · cases hc.symm.trans h
    rw [State.waitCycle_halt, State.latch_halt, hs] at ht
    cases ht
  · cases hc.symm.trans h
    cases ht
    rfl
  · cases hc.symm.trans h
    cases ht
    rfl
  · cases hc.symm.trans h
    cases hu.symm.trans ht

/-- Settles O12, event by event: Reset and a tick halt no machine, and a cycle raises on the state it found. -/
theorem fatalConditionsArePrecise : Obligations.FatalConditionsArePrecise := by
  unfold Obligations.FatalConditionsArePrecise
  intro s t e rest f hevent hs hstep ht
  rw [step_cons hevent] at hstep
  cases e with
  | reset image =>
    obtain ⟨-, rfl⟩ := eq_loaded_of_resetEvent hstep
    cases ht
  | cycle k b => exact eq_raise_of_cycle_halts (s := s.withInputs rest) hs hstep ht
  | tick =>
    cases hstep
    rw [tick_halt] at ht
    cases hs.symm.trans ht

/-! ### KEYS (R101) -/

theorem State.waitCycle_keys (s : State) (r : RegIdx) (edges : Word) : (s.waitCycle r edges).keys = s.keys :=
  (s.waitCycle_onlyChanges r edges).2 .keys (by simp)

theorem tick_keys (s : State) : (tick s).keys = s.keys := (tick_onlyChanges s).2 .keys (by simp)

theorem keys_of_cycle_running {s t : State} {k : Word} {b : Byte} (hs : s.halt = none) (h : cycle k b s = .next t)
    (ht : t.halt = none) : t.keys = k := by
  obtain ⟨hne, -⟩ | ⟨r, -, -, hc⟩ | ⟨f, -, -, -, hc⟩ | ⟨w, f, -, -, -, -, hc⟩ | ⟨w, u, -, -, -, hexec, -, hc⟩ :=
    cycle_cases k b s
  · exact absurd hs hne
  · cases hc.symm.trans h
    exact State.waitCycle_keys _ r _
  · cases hc.symm.trans h
    cases ht
  · cases hc.symm.trans h
    cases ht
  · cases hc.symm.trans h
    obtain ⟨u', hu', -, -, -, -, hkeys, -⟩ := execWord_next w (s.latch k b)
    cases hu'.symm.trans hexec
    exact hkeys

/-- Settles O14: a cycle stores `keys_in` before it does anything else, and a tick does not write KEYS. -/
theorem keysAreTheCycleSnapshot : Obligations.KeysAreTheCycleSnapshot := by
  unfold Obligations.KeysAreTheCycleSnapshot
  intro s t rest hstep hs
  refine ⟨fun k b hevent ht => ?cycle, fun hevent => ?tick⟩
  case cycle => exact keys_of_cycle_running (s := s.withInputs rest) hs ((step_cycle hevent).symm.trans hstep) ht
  case tick =>
    cases (step_tick hevent).symm.trans hstep
    exact tick_keys (s.withInputs rest)

/-! ### The wait branch (R102) -/

theorem getLsbD_keyEdges (prev now : Word) (j : Fin 16) :
    (keyEdges prev now).getLsbD j = (now.getLsbD j && !prev.getLsbD j) := by
  simp [keyEdges]

/-- A key shows no edge when it is up, or down before as well. -/
theorem getLsbD_keyEdges_eq_false {prev now : Word} {j : Fin 16}
    (h : now.getLsbD j = true → prev.getLsbD j = true) : (keyEdges prev now).getLsbD j = false := by
  rw [getLsbD_keyEdges]
  cases hnow : now.getLsbD j with
  | false => rfl
  | true => rw [h hnow]; rfl

theorem keyEdges_eq_zero {prev now : Word} (h : ∀ k : Fin 16, now.getLsbD k = true → prev.getLsbD k = true) :
    keyEdges prev now = 0 :=
  BitVec.eq_of_getLsbD_eq fun j hj => (getLsbD_keyEdges_eq_false (h ⟨j, hj⟩)).trans BitVec.getLsbD_zero.symm

/-- The key delivered is the lowest with an edge (D21). -/
theorem lowestKey_eq_some {e : Word} {k : Fin 16} (hk : e.getLsbD k = true)
    (hlow : ∀ j : Fin 16, j < k → e.getLsbD j = false) : lowestKey e = some (BitVec.ofFin k) := by
  cases hfound : lowestKey e with
  | none =>
    rw [lowestKey_none.1 hfound] at hk
    simp at hk
  | some k' =>
    obtain ⟨hk', hlow'⟩ := lowestKey_some hfound
    obtain hlt | heq | hgt := lt_trichotomy k.val k'.toNat
    · exact absurd hk (Bool.eq_false_iff.1 (hlow' k hlt))
    · exact congrArg some (BitVec.eq_of_toNat_eq heq.symm)
    · exact absurd hk' (Bool.eq_false_iff.1 (hlow ⟨k'.toNat, k'.isLt⟩ hgt))

theorem zeroExtend_ofFin (k : Fin 16) : (BitVec.ofFin (w := 4) k).zeroExtend 8 = BitVec.ofNat 8 k :=
  BitVec.eq_of_toNat_eq (by simp)

/-- Settles O15: without an edge the wait branch is the identity; with one, `lowestKey` is that key. -/
theorem waitingCycleWakesOnKeyEdge : Obligations.WaitingCycleWakesOnKeyEdge := by
  unfold Obligations.WaitingCycleWakesOnKeyEdge
  intro s now b rest r hevent hs hwait
  have hstep := step_cycle_waiting hevent hs hwait
  refine ⟨fun hnone => ?noEdge, fun k hdown hup hlow => ?edge⟩
  case noEdge =>
    rw [keyEdges_eq_zero hnone] at hstep
    rw [State.waitCycle, lowestKey_none.2 rfl] at hstep
    exact ⟨_, hstep, onlyChanges_refl ((s.withInputs rest).latch now b) []⟩
  case edge =>
    have hkey : lowestKey (keyEdges s.keys now) = some (BitVec.ofFin k) :=
      lowestKey_eq_some (by rw [getLsbD_keyEdges, hdown, hup]; rfl) fun j hj => getLsbD_keyEdges_eq_false (hlow j hj)
    rw [State.waitCycle, hkey] at hstep
    refine ⟨_, hstep, fun q => ?_, rfl, rfl, ?_⟩
    · rw [← zeroExtend_ofFin]
      exact State.reg_setReg _ r q _
    · exact ((State.setReg_onlyChanges _ r _).append (State.advance_onlyChanges _)).append
        (State.setWait_onlyChanges _ none)

end Sys2Proof.Machine
end

section
/-! Rules about whole steps: who writes what over a cycle, and that the configuration is fixed. -/

namespace Sys2Proof.Machine

/-! ### Which instruction writes a part over a whole cycle (R51, R66, R212, R234) -/

theorem latch_agrees (s : State) (k : Word) (b : Byte) {p : Part} (hp : p ≠ .keys) : Agrees s (s.latch k b) p := by
  cases p <;> simp_all [Agrees]

/-- An Unknown word writes HALT, or PC and the record of diagnostics (R125). -/
theorem execUnknown_agrees {u : Word} {s t : State} {p : Part} (h : execUnknown u s = .next t)
    (hp : p ∉ [.halt, .diagnostics, .pc]) : Agrees s t p := by
  obtain ⟨-, hu⟩ | ⟨-, hu⟩ := execUnknown_cases u s <;> cases hu.symm.trans h
  · exact ((s.raise_raises _).2.mono (by simp)).2 p hp
  · exact (((s.emit_onlyChanges _).append (State.advance_onlyChanges _)).mono (by simp)).2 p hp

/-- The parts that a cycle may write without executing an instruction that writes them: it refreshes, wakes, raises, or
meets an Unknown word. -/
def partsOfCycle : List Part := [.keys, .regs, .pc, .wait, .halt, .diagnostics]

/-- Where another part differs after a cycle, the word at PC is an instruction that writes it. -/
theorem writer_of_cycle {s t : State} {k : Word} {b : Byte} {p : Part} (h : cycle k b s = .next t)
    (hp : p ∉ partsOfCycle) (hd : ¬ Agrees s t p) :
    ∃ w i, fetch s = .ok w ∧ decode w = .instr i ∧ p ∈ partsWritten i := by
  have hnot {ps : List Part} (hsub : ps ⊆ partsOfCycle) : p ∉ ps := fun hmem => hp (hsub hmem)
  have hkeys : p ≠ .keys := List.ne_of_not_mem_cons hp
  have hhalt : p ≠ .halt := fun he => hnot (ps := [.halt]) (by simp [partsOfCycle]) (by simp [he])
  have hlatch : Agrees s (s.latch k b) p := latch_agrees s k b hkeys
  obtain ⟨-, hc⟩ | ⟨r, -, -, hc⟩ | ⟨f, -, -, -, hc⟩ | ⟨w, f, -, -, -, -, hc⟩ | ⟨w, u, -, -, hfetch, hexec, -, hc⟩ :=
    cycle_cases k b s <;> cases hc.symm.trans h
  · exact absurd (agrees_refl s p) hd
  · exact absurd (agrees_trans hlatch ((State.waitCycle_onlyChanges _ r _).2 p (hnot (by simp [partsOfCycle])))) hd
  · exact absurd ((s.raise_raises f).2.2 p (hnot (by simp [partsOfCycle]))) hd
  · exact absurd ((s.raise_raises f).2.2 p (hnot (by simp [partsOfCycle]))) hd
  · have hd' : ¬ Agrees (s.latch k b) t p := fun hsame => hd (agrees_trans hlatch hsame)
    cases hdecode : decode w with
    | instr i =>
      rw [execWord_instr hdecode] at hexec
      exact ⟨w, i, hfetch, hdecode, mem_partsWritten_of_not_agrees hexec hhalt hd'⟩
    | unknown u =>
      rw [execWord_unknown hdecode] at hexec
      exact absurd (execUnknown_agrees hexec (hnot (by simp [partsOfCycle]))) hd'

theorem agrees_of_withInputs {s t : State} {rest : List Event} {p : Part} (h : Agrees (s.withInputs rest) t p) :
    Agrees s t p := by
  cases p <;> exact h

/-- Settles O49: the word at PC is an instruction that writes the part, and the tables say which those are. -/
theorem cycleWritersAreTheDecodedInstruction : Obligations.CycleWritersAreTheDecodedInstruction := by
  unfold Obligations.CycleWritersAreTheDecodedInstruction
  intro s t k b rest hevent hstep
  have hcycle : cycle k b (s.withInputs rest) = .next t := (step_cycle hevent).symm.trans hstep
  have hwriter {p : Part} (hp : p ∉ partsOfCycle) (hd : ¬ Agrees s t p) :
      ∃ w i, fetch s = .ok w ∧ decode w = .instr i ∧ p ∈ partsWritten i :=
    writer_of_cycle (s := s.withInputs rest) hcycle hp fun hsame => hd (agrees_of_withInputs hsame)
  refine ⟨fun hd => ?mem, fun hd => ?screen, fun hd => ?delay, fun hd => ?sound⟩
  case mem =>
    obtain ⟨w, i, hfetch, hdecode, hi⟩ := hwriter (by simp [partsOfCycle]) hd
    obtain ⟨x, rfl | rfl⟩ := mem_mem_partsWritten hi
    · exact ⟨w, x, hfetch, .inl hdecode⟩
    · exact ⟨w, x, hfetch, .inr hdecode⟩
  case screen =>
    obtain ⟨w, i, hfetch, hdecode, hi⟩ := hwriter (by simp [partsOfCycle]) hd
    obtain rfl | ⟨x, y, n, rfl⟩ := screen_mem_partsWritten hi
    · exact ⟨w, hfetch, .inl hdecode⟩
    · exact ⟨w, hfetch, .inr ⟨x, y, n, hdecode⟩⟩
  case delay =>
    obtain ⟨w, i, hfetch, hdecode, hi⟩ := hwriter (by simp [partsOfCycle]) hd
    obtain ⟨x, rfl⟩ := delay_mem_partsWritten hi
    exact ⟨w, x, hfetch, hdecode⟩
  case sound =>
    obtain ⟨w, i, hfetch, hdecode, hi⟩ := hwriter (by simp [partsOfCycle]) hd
    obtain ⟨x, rfl⟩ := sound_mem_partsWritten hi
    exact ⟨w, x, hfetch, hdecode⟩

/-! ### The configuration (R34) -/

theorem takeEvent_cfg (s : State) : s.takeEvent.2.cfg = s.cfg := by
  unfold State.takeEvent
  split <;> rfl

theorem cycle_cfg {s t : State} {k : Word} {b : Byte} (h : cycle k b s = .next t) : t.cfg = s.cfg := by
  obtain ⟨-, hc⟩ | ⟨r, -, -, hc⟩ | ⟨f, -, -, -, hc⟩ | ⟨w, f, -, -, -, -, hc⟩ | ⟨w, u, -, -, -, hexec, -, hc⟩ :=
    cycle_cases k b s <;> cases hc.symm.trans h
  · rfl
  · exact (State.waitCycle_onlyChanges _ r _).cfg
  · rfl
  · rfl
  · obtain ⟨u', hu', hcfg, -⟩ := execWord_next w (s.latch k b)
    cases hu'.symm.trans hexec
    exact hcfg

/-- Settles O50, event by event. -/
theorem configurationNeverChanges : Obligations.ConfigurationNeverChanges := by
  unfold Obligations.ConfigurationNeverChanges
  intro s t hstep
  rw [← takeEvent_cfg s]
  unfold step handle at hstep
  split at hstep
  · obtain ⟨-, rfl⟩ := eq_loaded_of_resetEvent hstep
    rfl
  · exact cycle_cfg hstep
  · cases hstep
    exact (tick_onlyChanges _).cfg

end Sys2Proof.Machine
end

section
/-! Runs that stay where they are: ticks in a row, the idle loop, waiting for ever (70_reset_and_hazards.md R306). -/

namespace Sys2Proof.Machine

/-! ### Runs -/

theorem run_succ_of_step {M : Host.Core} {s u : M.State} (h : M.step s = .next u) (n : Nat) :
    M.run (n + 1) s = M.run n u := by
  rw [Host.Core.run, h]

/-- The events to come do not matter to a frame. -/
theorem OnlyChanges.withInputs {s t : State} {ps : List Part} (h : OnlyChanges s t ps) (rest : List Event) :
    OnlyChanges (s.withInputs rest) (t.withInputs rest) ps := by
  obtain ⟨⟨hcfg, hrnd, -, hdrawn⟩, hparts⟩ := h
  exact ⟨⟨hcfg, hrnd, rfl, hdrawn⟩, fun p hp => by have := hparts p hp; cases p <;> exact this⟩

/-! ### Ticks in a row -/

/-- Settles O46, by induction on the number of ticks: the first takes one off each timer, the others what is left. -/
theorem timerIsZeroAfterItsCountOfTicks : Obligations.TimerIsZeroAfterItsCountOfTicks := by
  unfold Obligations.TimerIsZeroAfterItsCountOfTicks
  intro n
  induction n with
  | zero =>
    rintro s rest rfl hs
    exact ⟨s, rfl, rfl, rfl, onlyChanges_refl s _⟩
  | succ n ih =>
    intro s rest hevents hs
    have hframe := tick_onlyChanges (s.withInputs (List.replicate n .tick ++ rest))
    have hs' : (s.withInputs (List.replicate n .tick ++ rest)).halt = none := hs
    obtain ⟨(t : State), hrun, hdt, hst, ht⟩ := ih _ rest hframe.inputs ((tick_halt _).trans hs')
    refine ⟨t, (run_succ_of_step (M := core) (step_tick hevents) n).trans hrun, hdt.trans ?_, hst.trans ?_,
      onlyChanges_trans (hframe.withInputs rest) ht⟩
    · rw [tick_dt_toNat_of_running hs', Nat.sub_sub, Nat.add_comm 1 n]; rfl
    · rw [tick_st_toNat_of_running hs', Nat.sub_sub, Nat.add_comm 1 n]; rfl

/-! ### The idle loop `JP PC` -/

theorem or_zextAddr (a : Addr12) : 0x1000#16 ||| zextAddr a = formatNNN 0x1#4 a := by
  rw [zextAddr, ← formatNNN_zero, show 0x1000#16 = formatNNN 0x1#4 0 from rfl]
  exact BitVec.or_append.trans (by simp [formatNNN])

/-- A PC inside memory is the zero-extension of a 12-bit address. -/
theorem zextAddr_setWidth {pc : Word} (h : pc.toNat ≤ 0xFFF) : zextAddr (pc.setWidth 12) = pc := by
  apply BitVec.eq_of_toNat_eq
  rw [toNat_zextAddr, BitVec.toNat_setWidth]
  omega

/-- `JP PC` decodes to a jump to PC itself. -/
theorem decode_jp_self {pc : Word} (h : pc.toNat ≤ 0xFFF) :
    decode (0x1000 ||| pc) = .instr (.jp (pc.setWidth 12)) := by
  have hword : 0x1000 ||| pc = encode (.jp (pc.setWidth 12)) := by
    conv_lhs => rw [← zextAddr_setWidth h]
    exact or_zextAddr _
  rw [hword]
  exact decodeEncodeRoundTrip _ rfl

/-- Settles O51: the jump leaves PC, and so what is fetched, as it was. -/
theorem idleLoopStays : Obligations.IdleLoopStays := by
  unfold Obligations.IdleLoopStays
  intro s k b rest hevent hidle
  obtain ⟨hs, hwait, hpc, hfetch⟩ := hidle
  have hstep := step_cycle_fetched hevent hs hwait hfetch
  rw [execWord_instr (decode_jp_self hpc)] at hstep
  have hjump : exec (.jp (s.pc.setWidth 12)) ((s.withInputs rest).latch k b) = .next ((s.withInputs rest).latch k b) := by
    show Host.Outcome.next (State.setPc _ _) = _
    rw [zextAddr_setWidth hpc]
    rfl
  rw [hjump] at hstep
  exact ⟨_, hstep.trans (commit_ok hs), ⟨hs, hwait, hpc, hfetch⟩, onlyChanges_refl ((s.withInputs rest).latch k b) []⟩

/-! ### Waiting for ever -/

/-- The state with other events to come and another random byte. -/
def State.withEnv (s : State) (rest : List Event) (b : Byte) : State := { s with inputs := rest, rnd := b }

/-- Nor does the random byte matter to a frame. -/
theorem OnlyChanges.withEnv {s t : State} {ps : List Part} (h : OnlyChanges s t ps) (rest : List Event) (b : Byte) :
    OnlyChanges (s.withEnv rest b) (t.withEnv rest b) ps := by
  obtain ⟨⟨hcfg, -, -, hdrawn⟩, hparts⟩ := h
  exact ⟨⟨hcfg, rfl, rfl, hdrawn⟩, fun p hp => by have := hparts p hp; cases p <;> exact this⟩

/-- The first event of a machine that waits for ever: it waits on, and only KEYS, DT, ST and the random byte change. -/
theorem handle_keeps_waitsForever {s : State} {events : Nat → Event} (h : s.WaitsForever events) :
    ∃ u, handle (events 0) s = .next u ∧ u.wait = s.wait ∧ u.WaitsForever (fun k => events (k + 1)) ∧
      u.keys = keysBefore s.keys events 1 ∧ OnlyChanges (s.withEnv s.inputs u.rnd) u [.keys, .delay, .sound] := by
  obtain ⟨u, hu, hkeys, hform⟩ := handle_waitsForever h
  obtain ⟨hwaiting, hreset, hedge⟩ := h
  have hforever (hw : u.Waiting) : u.WaitsForever fun k => events (k + 1) := ⟨hw, hreset.tail, hkeys ▸ hedge.tail⟩
  obtain ⟨k, b, rfl⟩ | rfl := hform
  · exact ⟨_, hu, rfl, hforever hwaiting, hkeys, ⟨rfl, rfl, rfl, rfl⟩, fun p hp => by
      have := latch_agrees s k b (List.ne_of_not_mem_cons hp)
      cases p <;> exact this⟩
  · exact ⟨_, hu, rfl, hforever hwaiting, hkeys,
      ((s.setDt_onlyChanges _).append (State.setSt_onlyChanges _ _)).mono (by simp)⟩

/-- Settles O52, by induction on the number of events: the first leaves a machine that waits for ever for the others. -/
theorem waitingForeverStays : Obligations.WaitingForeverStays := by
  unfold Obligations.WaitingForeverStays
  intro n
  induction n with
  | zero =>
    rintro s events rest hforever rfl
    exact ⟨s, rfl, rfl, by simpa only [Nat.zero_add] using hforever, rfl, onlyChanges_refl s _⟩
  | succ n ih =>
    intro s events rest hforever hevents
    have hevent : s.inputs = events 0 :: ((List.range n).map (fun k => events (k + 1)) ++ rest) := by
      rw [hevents, List.range_succ_eq_map, List.map_cons, List.map_map]
      rfl
    obtain ⟨u, hu, hwait, hforever', hkeys, hframe⟩ :=
      handle_keeps_waitsForever (s := s.withInputs ((List.range n).map (fun k => events (k + 1)) ++ rest)) hforever
    obtain ⟨(t : State), hrun, htwait, htforever, htkeys, ht⟩ := ih u _ rest hforever' hframe.inputs
    have hall : (fun k => events (n + k + 1)) = fun k => events (n + 1 + k) := by
      funext k
      rw [Nat.add_right_comm]
    have hstep : step s = .next u := (step_cons hevent).trans hu
    refine ⟨t, (run_succ_of_step (M := core) hstep n).trans hrun, htwait.trans hwait, hall ▸ htforever, ?keys,
      onlyChanges_trans (hframe.withEnv rest t.rnd) ht⟩
    case keys => rw [htkeys, hkeys]; exact keysBefore_succ s.keys events n

end Sys2Proof.Machine
end

section
/-! What Reset leaves, and the state before an image is loaded (70_reset_and_hazards.md, 10_state.md section 11). -/

namespace Sys2Proof.Machine

/-- Settles O53: the loader tests the length before it copies anything. -/
theorem resetRefusesBadImages : Obligations.ResetRefusesBadImages := by
  unfold Obligations.ResetRefusesBadImages
  intro s image rest hevent
  rw [step_cons hevent]
  exact ⟨fun hempty => resetEvent_empty hempty _, fun hlong => resetEvent_tooLarge hlong _⟩

/-! ### Memory after Reset (R39, R53, R302) -/

theorem unlisted_of_ge {a : Nat} (h : 0x50 ≤ a) : Memory.unlisted a = 0 := dif_neg (by omega)

/-- Row `k` of glyph `d` of the default font is what an unlisted cell reads as (R53). -/
theorem unlisted_font {d k : Nat} (hd : d < 16) (hk : k < 5) : Memory.unlisted (5 * d + k) = (defaultFont[d])[k] := by
  have hdiv : (5 * d + k) / 5 = d := by omega
  have hmod : (5 * d + k) % 5 = k := by omega
  rw [Memory.unlisted, dif_pos (by omega)]
  simp only [hdiv, hmod]

theorem read_freshMemory (f : Font) (a : Nat) :
    (freshMemory f).read a = if a < 80 then (fontBytes f).getD a 0 else Memory.unlisted a := by
  have h := Memory.read_writeFrom (m := []) (a := 0) (fontBytes f) rfl (by rw [fontBytes_length]; decide) a
  simpa [freshMemory, Memory.read] using h

theorem read_freshMemory_font (f : Font) {d k : Nat} (hd : d < 16) (hk : k < 5) :
    (freshMemory f).read (5 * d + k) = (f[d])[k] := by
  rw [read_freshMemory, if_pos (by omega), fontBytes_getD f hd hk]

theorem read_freshMemory_of_ge (f : Font) {a : Nat} (h : 0x50 ≤ a) : (freshMemory f).read a = 0 := by
  rw [read_freshMemory, if_neg (by omega), unlisted_of_ge h]

section
variable {s : State} {image : List Byte} (hmax : image.length ≤ maxProgram)
include hmax

theorem read_loaded (a : Nat) :
    (s.loaded image).mem.read a =
      if 0x200 ≤ a ∧ a < 0x200 + image.length then image.getD (a - 0x200) 0 else (freshMemory s.cfg.font).read a :=
  Memory.read_writeFrom image (Memory.fresh_wf s.cfg.font) (by simp only [loadAddr, maxProgram, memSize] at *; omega) a

theorem read_loaded_image {j : Nat} (h : j < image.length) : (s.loaded image).mem.read (0x200 + j) = image[j] := by
  rw [read_loaded hmax, if_pos (by omega), Nat.add_sub_cancel_left, List.getD_eq_getElem _ _ h]

theorem read_loaded_outside {a : Nat} (h : ¬ (0x200 ≤ a ∧ a < 0x200 + image.length)) :
    (s.loaded image).mem.read a = (freshMemory s.cfg.font).read a := by
  rw [read_loaded hmax, if_neg h]

end

/-! ### The other members (R39) -/

theorem reg_eq_zero_of_v {s : State} (h : s.v = Vector.replicate 16 0) (r : RegIdx) : s.reg r = 0 := by
  simp [State.reg, h]

/-- Settles O54: the state is the loaded one; its memory is the image over the font over zeros, the rest is constructed. -/
theorem resetReplacesTheWholeState : Obligations.ResetReplacesTheWholeState := by
  unfold Obligations.ResetReplacesTheWholeState
  intro s image rest hevent hpos hmax
  have hstep : step s = .next ((s.withInputs rest).loaded image) :=
    (step_cons hevent).trans (resetEvent_loaded (Nat.ne_of_gt hpos) hmax _)
  refine ⟨_, hstep, fun d k hd hk => ?font, fun a hlow hhigh => ?reserved, fun j hj => read_loaded_image hmax hj,
    fun a hlow _ => ?above, rfl, rfl, reg_eq_zero_of_v rfl, rfl, rfl, rfl, State.pixel_eq_false_of_fb_eq_clearScreen rfl,
    rfl, rfl, rfl, fun k => ?stack, loaded_mem_wf hmax _, rfl, rfl⟩
  case font => rw [read_loaded_outside hmax (by omega)]; exact read_freshMemory_font _ hd hk
  case reserved => rw [read_loaded_outside hmax (by omega)]; exact read_freshMemory_of_ge _ hlow
  case above => rw [read_loaded_outside hmax (by omega)]; exact read_freshMemory_of_ge _ (by omega)
  case stack => exact Vector.getElem_replicate k.isLt

/-- Settles O55: nothing is listed in memory, so that every cell reads as an unlisted one. -/
theorem resetStateValues : Obligations.ResetStateValues := by
  unfold Obligations.ResetStateValues
  exact ⟨rfl, rfl, reg_eq_zero_of_v rfl, rfl, rfl, rfl, rfl, State.pixel_eq_false_of_fb_eq_clearScreen rfl, rfl, rfl, rfl,
    fun _ _ hd hk => unlisted_font hd hk, fun _ => unlisted_of_ge⟩

/-- Settles O56: nothing is listed, PC is 0x200, and the machine neither waits nor halts. -/
theorem invariantHoldsAtReset : Obligations.InvariantHoldsAtReset := by
  unfold Obligations.InvariantHoldsAtReset
  exact ⟨Memory.reset_wf, nofun, fun _ => ⟨by decide, fun k => by simp [State.reset]⟩, nofun⟩

end Sys2Proof.Machine
end

section
/-! Single instructions: return, key skips, arithmetic, the font address, timers, the key wait. -/

namespace Sys2Proof.Machine

/-! ### `RET` after `CALL` (R121, R123) -/

/-- Settles O21: `CALL` left `PC + 2` in the slot that `RET` reads. -/
theorem retResumesAfterCall : Obligations.RetResumesAfterCall := by
  unfold Obligations.RetResumesAfterCall
  intro s t nnn pc hsp hcall
  obtain ⟨k, hk⟩ := Fin.exists_castSucc_eq.2 hsp
  cases hcall.symm.trans (exec_call_push hk.symm nnn)
  refine ⟨_, exec_ret_pop (k := k) rfl, ?pc, hk, ?frame⟩
  case pc => exact Vector.getElem_set_self k.isLt
  case frame =>
    exact ((State.setPc_onlyChanges _ pc).append (State.setStack_setPc_onlyChanges _ _ _ _)).mono (by simp)

/-! ### Key skips (R144 to R146) -/

theorem exec_skp (x : RegIdx) (s : State) : exec (.skp x) s = .next (s.skipIf (s.pressed (s.reg x))) := rfl
theorem exec_sknp (x : RegIdx) (s : State) : exec (.sknp x) s = .next (s.skipIf (!s.pressed (s.reg x))) := rfl

/-- `Pressed(v)` for a key code, and under `mask` for any byte whose low four bits are one. -/
theorem State.pressed_of_code {s : State} {v : Byte} {k : Fin 16}
    (h : v.toNat = k.val ∨ (s.cfg.keyIndexMode = .mask ∧ v.toNat % 16 = k.val)) :
    s.pressed v = s.keys.getLsbD k := by
  unfold State.pressed
  split
  · next hmode =>
    have hv : v.toNat = k.val := h.resolve_right fun ⟨hmask, _⟩ => nomatch hmode.symm.trans hmask
    have hle : k.val ≤ 0x0F := by omega
    simp [hv, hle]
  · have hv : v.toNat % 16 = k.val := by omega
    rw [hv]

theorem State.pressed_above {s : State} {v : Byte} (hmode : s.cfg.keyIndexMode = .neverPressed) (hv : 0x0F < v.toNat) :
    s.pressed v = false := by
  simp [State.pressed, hmode, Nat.not_le.2 hv]

/-- Settles O24: both skips are decided by `Pressed(V[x])`, which is the key's bit, or false above 0xF. -/
theorem skipsOnKeyState : Obligations.SkipsOnKeyState := by
  unfold Obligations.SkipsOnKeyState
  intro s x k
  refine ⟨fun hcode => ?code, fun hmode hv => ?above⟩
  case code =>
    have hpressed := State.pressed_of_code hcode
    refine ⟨⟨_, exec_skp x s, ?_, s.skipIf_onlyChanges _⟩, ⟨_, exec_sknp x s, ?_, s.skipIf_onlyChanges _⟩⟩
    · rw [State.skipIf_pc, hpressed]
    · rw [State.skipIf_pc, hpressed]
      cases s.keys.getLsbD k <;> rfl
  case above =>
    have hpressed := State.pressed_above hmode hv
    refine ⟨⟨_, exec_skp x s, ?_, s.skipIf_onlyChanges _⟩, ⟨_, exec_sknp x s, ?_, s.skipIf_onlyChanges _⟩⟩
    · rw [State.skipIf_pc, hpressed]; rfl
    · rw [State.skipIf_pc, hpressed]; rfl

/-! ### Logic and the random byte (R163 to R165, R171) -/

theorem exec_orReg (x y : RegIdx) (s : State) :
    exec (.orReg x y) s = .next (s.setReg x (s.reg x ||| s.reg y)).advance := rfl
theorem exec_andReg (x y : RegIdx) (s : State) :
    exec (.andReg x y) s = .next (s.setReg x (s.reg x &&& s.reg y)).advance := rfl
theorem exec_xorReg (x y : RegIdx) (s : State) :
    exec (.xorReg x y) s = .next (s.setReg x (s.reg x ^^^ s.reg y)).advance := rfl
theorem exec_rnd (x : RegIdx) (nn : Byte) (s : State) : exec (.rnd x nn) s = .next (s.setReg x (s.rnd &&& nn)).advance := rfl

/-- What an instruction does that writes `b` to `V[x]`, bit by bit. -/
theorem exists_next_bits_of_exec_eq_setReg {i : Instr} {s : State} {x : RegIdx} {b : Byte} {bit : Nat → Bool}
    (hexec : exec i s = .next (s.setReg x b).advance) (hbit : ∀ k, b.getLsbD k = bit k) :
    ∃ t, exec i s = .next t ∧ (∀ k, (t.reg x).getLsbD k = bit k) ∧ (∀ r, r ≠ x → t.reg r = s.reg r) ∧
      t.pc = s.pc + 2 ∧ OnlyChanges s t [.regs, .pc] := by
  obtain ⟨t, ht, hreg, hpc, hframe⟩ := exists_next_of_exec_eq_setReg hexec
  exact ⟨t, ht, fun k => by rw [hreg, if_pos rfl, hbit], fun r hr => by rw [hreg, if_neg hr], hpc, hframe⟩

/-- Settles O27: each writes one register, with the operator bit by bit. -/
theorem logicKeepsFlag : Obligations.LogicKeepsFlag := by
  unfold Obligations.LogicKeepsFlag
  intro s x y
  exact ⟨exists_next_bits_of_exec_eq_setReg (exec_orReg x y s) fun _ => BitVec.getLsbD_or,
    exists_next_bits_of_exec_eq_setReg (exec_andReg x y s) fun _ => BitVec.getLsbD_and,
    exists_next_bits_of_exec_eq_setReg (exec_xorReg x y s) fun _ => BitVec.getLsbD_xor⟩

/-- Settles O31: the one register written is the `and` with the random byte, bit by bit. -/
theorem rndMasksTheRandomByte : Obligations.RndMasksTheRandomByte := by
  unfold Obligations.RndMasksTheRandomByte
  intro s x nn
  exact exists_next_bits_of_exec_eq_setReg (exec_rnd x nn s) fun _ => BitVec.getLsbD_and

/-! ### Arithmetic with a flag (R166 to R170, R172) -/

theorem exec_addReg (x y : RegIdx) (s : State) : exec (.addReg x y) s =
    .next (s.setResultFlag x (s.reg x + s.reg y) (addCarry (s.reg x) (s.reg y))).advance := rfl
theorem exec_subReg (x y : RegIdx) (s : State) : exec (.subReg x y) s =
    .next (s.setResultFlag x (s.reg x - s.reg y) (noBorrow (s.reg x) (s.reg y))).advance := rfl
theorem exec_subnReg (x y : RegIdx) (s : State) : exec (.subnReg x y) s =
    .next (s.setResultFlag x (s.reg y - s.reg x) (noBorrow (s.reg y) (s.reg x))).advance := rfl
theorem exec_shr (x y : RegIdx) (s : State) : exec (.shr x y) s =
    .next (s.setResultFlag x (s.shiftSource x y >>> 1) (shrOut (s.shiftSource x y))).advance := rfl
theorem exec_shl (x y : RegIdx) (s : State) : exec (.shl x y) s =
    .next (s.setResultFlag x (s.shiftSource x y <<< 1) (shlOut (s.shiftSource x y))).advance := rfl

/-- What an instruction does that writes a result and then the flag: the flag is VF for every `x`, the result `V[x]` for
every `x` but F (R172). -/
theorem exists_next_of_exec_eq_setResultFlag {i : Instr} {s : State} {x : RegIdx} {b : Byte} {c : Bool}
    (hexec : exec i s = .next (s.setResultFlag x b c).advance) :
    ∃ t, exec i s = .next t ∧ t.reg vf = flagByte c ∧ (x ≠ vf → t.reg x = b) ∧
      (∀ r, r ≠ x → r ≠ vf → t.reg r = s.reg r) ∧ t.pc = s.pc + 2 ∧ OnlyChanges s t [.regs, .pc] := by
  have hreg (r : RegIdx) := s.reg_setResultFlag x r b c
  refine ⟨_, hexec, ?_, fun hx => ?_, fun r hx hvf => ?_, rfl,
    (s.setResultFlag_onlyChanges x b c).append (State.advance_onlyChanges _)⟩
  · exact (hreg vf).trans (if_pos rfl)
  · exact (hreg x).trans ((if_neg hx).trans (if_pos rfl))
  · exact (hreg r).trans ((if_neg hvf).trans (if_neg hx))

theorem flagByte_decide (p : Prop) [Decidable p] : flagByte (decide p) = if p then 1 else 0 := by
  by_cases h : p <;> simp [flagByte, h]

theorem toNat_flagByte (c : Bool) : (flagByte c).toNat = c.toNat := by
  cases c <;> rfl

/-- Settles O28: the flag is the carry of the exact sum, and the result is read only where the flag has not replaced it. -/
theorem addSetsCarry : Obligations.AddSetsCarry := by
  unfold Obligations.AddSetsCarry
  intro s x y
  obtain ⟨t, hexec, hflag, hresult, hrest⟩ := exists_next_of_exec_eq_setResultFlag (exec_addReg x y s)
  refine ⟨t, hexec, hflag.trans (flagByte_decide _), fun hx => ?_, hrest⟩
  rw [hresult hx, BitVec.toNat_add]

theorem toNat_byte_sub (a b : Byte) : (a - b).toNat = (256 + a.toNat - b.toNat) % 256 := by
  rw [BitVec.toNat_sub]
  omega

/-- Settles O29: the flag is the comparison of the operands, and the difference of bytes is the one modulo 256. -/
theorem subtractionsSetNoBorrow : Obligations.SubtractionsSetNoBorrow := by
  unfold Obligations.SubtractionsSetNoBorrow
  intro s x y
  constructor
  · obtain ⟨t, hexec, hflag, hresult, hrest⟩ := exists_next_of_exec_eq_setResultFlag (exec_subReg x y s)
    exact ⟨t, hexec, hflag.trans (flagByte_decide _), fun hx => by rw [hresult hx, toNat_byte_sub], hrest⟩
  · obtain ⟨t, hexec, hflag, hresult, hrest⟩ := exists_next_of_exec_eq_setResultFlag (exec_subnReg x y s)
    exact ⟨t, hexec, hflag.trans (flagByte_decide _), fun hx => by rw [hresult hx, toNat_byte_sub], hrest⟩

theorem State.shiftSource_eq (s : State) (x y : RegIdx) :
    s.shiftSource x y = if s.cfg.shiftSource = .vx then s.reg x else s.reg y := by
  unfold State.shiftSource
  split <;> simp [*]

theorem toNat_shrOut (b : Byte) : (flagByte (shrOut b)).toNat = b.toNat % 2 := by
  rw [toNat_flagByte, shrOut, BitVec.getLsbD, Nat.toNat_testBit, pow_zero, Nat.div_one]

theorem toNat_shlOut (b : Byte) : (flagByte (shlOut b)).toNat = b.toNat / 128 := by
  rw [toNat_flagByte, shlOut, BitVec.getLsbD, Nat.toNat_testBit]
  omega

theorem toNat_byte_shr (b : Byte) : (b >>> 1).toNat = b.toNat / 2 := by
  rw [BitVec.toNat_ushiftRight, Nat.shiftRight_eq_div_pow, pow_one]

theorem toNat_byte_shl (b : Byte) : (b <<< 1).toNat = b.toNat * 2 % 256 := by
  rw [BitVec.toNat_shiftLeft, Nat.shiftLeft_eq, pow_one]

/-- Settles O30: bit 0 is the source modulo 2, bit 7 the source divided by 128. -/
theorem shiftsSetBitOut : Obligations.ShiftsSetBitOut := by
  unfold Obligations.ShiftsSetBitOut
  rintro s x y src hsrc
  rw [← s.shiftSource_eq x y] at hsrc
  subst hsrc
  constructor
  · obtain ⟨t, hexec, hflag, hresult, hrest⟩ := exists_next_of_exec_eq_setResultFlag (exec_shr x y s)
    exact ⟨t, hexec, hflag ▸ toNat_shrOut _, fun hx => by rw [hresult hx, toNat_byte_shr], hrest⟩
  · obtain ⟨t, hexec, hflag, hresult, hrest⟩ := exists_next_of_exec_eq_setResultFlag (exec_shl x y s)
    exact ⟨t, hexec, hflag ▸ toNat_shlOut _, fun hx => by rw [hresult hx, toNat_byte_shl], hrest⟩

/-! ### The font address (R192) -/

theorem exec_ldF (x : RegIdx) (s : State) :
    exec (.ldF x) s = .next (s.setI (fontAddr (s.fontDigit (s.reg x)))).advance := rfl

theorem toNat_fontAddr {d : Nat} (h : d < 256) : (fontAddr d).toNat = 5 * d := by
  rw [fontAddr, BitVec.toNat_ofNat]
  omega

/-- Settles O34: the digit is at most 255, so that five times it is below 65536. -/
theorem ldFComputesFontAddress : Obligations.LdFComputesFontAddress := by
  unfold Obligations.LdFComputesFontAddress
  intro s x
  obtain ⟨t, hexec, hi, hrest⟩ := exists_next_of_exec_eq_setI (exec_ldF x s)
  refine ⟨t, hexec, fun hmode => ?_, fun hmode => ?_, hrest⟩
  · rw [hi, State.fontDigit, hmode]
    exact toNat_fontAddr (s.reg x).isLt
  · rw [hi, State.fontDigit, hmode]
    exact toNat_fontAddr (d := (s.reg x).toNat % 16) (by omega)

/-! ### Timers and the key wait (R231 to R233, R266) -/

theorem exec_ldDtVx (x : RegIdx) (s : State) : exec (.ldDtVx x) s = .next (s.setDt (s.reg x)).advance := rfl
theorem exec_ldStVx (x : RegIdx) (s : State) : exec (.ldStVx x) s = .next (s.setSt (s.reg x)).advance := rfl
theorem exec_ldVxK (x : RegIdx) (s : State) : exec (.ldVxK x) s = .next (s.setWait (some x)) := rfl

theorem State.tone_iff (s : State) : s.tone = true ↔ s.st ≠ 0 := by
  simp [State.tone]

/-- Settles O43: each writes its one timer, and the tone is the level of ST. -/
theorem timerLoadsWriteOneTimer : Obligations.TimerLoadsWriteOneTimer := by
  unfold Obligations.TimerLoadsWriteOneTimer
  intro s x
  exact ⟨⟨_, exec_ldDtVx x s, rfl, rfl, (s.setDt_onlyChanges _).append (State.advance_onlyChanges _)⟩,
    ⟨_, exec_ldStVx x s, rfl, State.tone_iff _, rfl, (s.setSt_onlyChanges _).append (State.advance_onlyChanges _)⟩⟩

/-- Settles O44: nothing but WAIT is written. -/
theorem ldVxKStartsTheWait : Obligations.LdVxKStartsTheWait := by
  unfold Obligations.LdVxKStartsTheWait
  exact fun s x => ⟨_, exec_ldVxK x s, rfl, s.setWait_onlyChanges _⟩

end Sys2Proof.Machine
end

section
/-! Memory transfers (44_index_memory.md R193 to R195). -/

namespace Sys2Proof.Machine

/-! ### Stores -/

/-- A store of `n` bytes at I and the advance: byte `k` is in the cell of item `k`, every other cell is as it was. -/
theorem read_store_advance {s : State} {n : Nat} {bs : List Byte} (hm : s.mem.wf = true) (hb : bs.length = n)
    (hn : n ≤ 4096) :
    (∀ k, k < n → (s.store ((List.range n).map (itemCell s)) bs).advance.mem.read (itemCell s k) = bs.getD k 0) ∧
      ∀ a, (∀ k, k < n → a ≠ itemCell s k) →
        (s.store ((List.range n).map (itemCell s)) bs).advance.mem.read a = s.mem.read a :=
  ⟨fun k hk => (State.read_store_items hm hb hn (itemCell s k)).1 k hk rfl,
    fun a ha => (State.read_store_items hm hb hn a).2 ha⟩

theorem State.store_advance_onlyChanges (s : State) (cells : List Nat) (bs : List Byte) :
    OnlyChanges s (s.store cells bs).advance [.mem, .pc] :=
  (s.store_onlyChanges cells bs).append (State.advance_onlyChanges _)

/-- The digits of a byte, in the order they are stored (R193, D11). -/
theorem toNat_bcdDigits (v : Byte) :
    ((bcdDigits v).getD 0 0).toNat = v.toNat / 100 ∧ ((bcdDigits v).getD 1 0).toNat = v.toNat / 10 % 10 ∧
      ((bcdDigits v).getD 2 0).toNat = v.toNat % 10 := by
  simp only [bcdDigits, List.getD_cons_zero, List.getD_cons_succ, BitVec.toNat_ofNat]
  omega

/-- Settles O35, by the two equations of `LD B`. -/
theorem ldBStoresDecimalDigits : Obligations.LdBStoresDecimalDigits := by
  unfold Obligations.LdBStoresDecimalDigits
  intro s x hm
  refine ⟨fun hr => ?_, fun hout => ⟨_, exec_ldB_outOfRange hout x, s.raise_raises _⟩⟩
  obtain ⟨hitem, hother⟩ := read_store_advance (n := 3) (bs := bcdDigits (s.reg x)) hm rfl (by decide)
  obtain ⟨hhundreds, htens, hones⟩ := toNat_bcdDigits (s.reg x)
  refine ⟨_, exec_ldB_inRange hr x, ?_, ?_, ?_, hother, rfl, s.store_advance_onlyChanges _ _⟩
  · rw [hitem 0 (by decide), hhundreds]
  · rw [hitem 1 (by decide), htens]
  · rw [hitem 2 (by decide), hones]

/-- Settles O36, by the two equations of `LD [I], Vx`. -/
theorem blockStoreWritesRegisters : Obligations.BlockStoreWritesRegisters := by
  unfold Obligations.BlockStoreWritesRegisters
  intro s x hm
  refine ⟨fun hr => ?_, fun hout => ⟨_, exec_ldMemVx_outOfRange hout, s.raise_raises _⟩⟩
  obtain ⟨hitem, hother⟩ := read_store_advance hm (s.regsUpTo_length x) (by omega)
  refine ⟨_, exec_ldMemVx_inRange hr, fun r hrx => ?_, fun a ha => hother a fun k hk => ha k (Nat.le_of_lt_succ hk), rfl,
    s.store_advance_onlyChanges _ _⟩
  have hlt : r.toNat < x.toNat + 1 := Nat.lt_succ_of_le (BitVec.le_def.1 hrx)
  rw [hitem _ hlt, s.regsUpTo_getD x hlt, BitVec.ofNat_toNat, BitVec.setWidth_eq]

/-- Settles O38: PC has moved to I, so the fetch reads the first two cells of the store. -/
theorem storeIsSeenByNextFetch : Obligations.StoreIsSeenByNextFetch := by
  unfold Obligations.StoreIsSeenByNextFetch
  intro s t x hm hx hi hrange hexec
  obtain ⟨t', hexec', hstored, -, hpc, -⟩ := (blockStoreWritesRegisters s x hm).1 (.inr (.inr (by omega)))
  cases hexec'.symm.trans hexec
  rw [← hi] at hpc
  have h0 := hstored 0 (BitVec.le_def.2 (Nat.zero_le _))
  have h1 := hstored 1 (BitVec.le_def.2 hx)
  rw [fetch_word (.inr (by rw [hpc]; omega)), hpc, ← h0, ← h1]
  rfl

/-! ### Loads -/

theorem State.load_items_getD (s : State) {n k : Nat} (h : k < n) :
    (s.load ((List.range n).map (itemCell s))).getD k 0 = s.mem.read (itemCell s k) := by
  simp [State.load, List.getD_eq_getElem?_getD, h]

/-- Settles O37, by the two equations of `LD Vx, [I]`. -/
theorem blockLoadReadsRegisters : Obligations.BlockLoadReadsRegisters := by
  unfold Obligations.BlockLoadReadsRegisters
  intro s x
  refine ⟨fun hr => ?_, fun hout => ⟨_, exec_ldVxMem_outOfRange hout, s.raise_raises _⟩⟩
  refine ⟨_, exec_ldVxMem_inRange hr, fun r => ?reg, by rw [State.advance_pc, State.setRegs_pc],
    (s.setRegs_onlyChanges 0 _).append (State.advance_onlyChanges _)⟩
  case reg =>
    have hlen : (s.load ((List.range (x.toNat + 1)).map (itemCell s))).length = x.toNat + 1 := by simp [State.load]
    rw [State.reg_advance, State.reg_setRegs s 0 _ (by omega), hlen]
    by_cases hrx : r ≤ x
    · have hlt : r.toNat < x.toNat + 1 := Nat.lt_succ_of_le (BitVec.le_def.1 hrx)
      rw [if_pos (by omega), if_pos hrx, Nat.sub_zero, s.load_items_getD hlt]
    · have hlt : ¬ r.toNat < x.toNat + 1 := fun h => hrx (BitVec.le_def.2 (Nat.le_of_lt_succ h))
      rw [if_neg (by omega), if_neg hrx]

end Sys2Proof.Machine
end

section
/-! Drawing (45_display.md R211, R213). -/

namespace Sys2Proof.Machine

theorem spriteBytes_length (s : State) (n : Nibble) : (spriteBytes s n).length = n.toNat := by
  simp [spriteBytes, State.load]

/-- The sprite of `DRW` covers a pixel exactly as the spec says (R211). -/
theorem bytesCover_spriteBytes_iff {s : State} {x y : RegIdx} {n : Nibble} {r : Fin 32} {c : Fin 64} :
    BytesCover s.cfg.drawVwrap ((s.reg x).toNat % 64) ((s.reg y).toNat % 32) 0 (spriteBytes s n) r c ↔
      SpriteCovers s x y n r c :=
  bytesCover_iff_spriteCovers s x y n r c

/-- The framebuffer drawn: the covered pixels are complemented, the others are as they were. -/
theorem drawSprite_pixel (s : State) (x y : RegIdx) (n : Nibble) (r : Fin 32) (c : Fin 64) :
    (SpriteCovers s x y n r c → ((s.drawSprite x y (spriteBytes s n)).1[r]).getLsbD c = !s.pixel r c) ∧
      (¬ SpriteCovers s x y n r c → ((s.drawSprite x y (spriteBytes s n)).1[r]).getLsbD c = s.pixel r c) := by
  rw [← bytesCover_spriteBytes_iff]
  exact drawRows_pixel _ _ _ _ _ _ _ (by rw [spriteBytes_length]; omega) r c

/-- The collision: a covered pixel was set. -/
theorem drawSprite_hit (s : State) (x y : RegIdx) (n : Nibble) :
    (s.drawSprite x y (spriteBytes s n)).2 = true ↔ ∃ r c, SpriteCovers s x y n r c ∧ s.pixel r c = true := by
  simp only [← bytesCover_spriteBytes_iff]
  rw [State.drawSprite, drawRows_hit _ _ _ _ _ _ _ (by rw [spriteBytes_length]; omega)]
  exact ⟨fun h => h.resolve_left Bool.false_ne_true, .inr⟩

/-- Settles O40, by the two equations of `DRW`. -/
theorem drwXorsSpriteAndSetsCollision : Obligations.DrwXorsSpriteAndSetsCollision := by
  unfold Obligations.DrwXorsSpriteAndSetsCollision
  intro s x y n
  refine ⟨fun hr => ?_, fun hout => ⟨_, exec_drw_outOfRange hout x y, s.raise_raises _⟩⟩
  have hhit := drawSprite_hit s x y n
  refine ⟨_, exec_drw_inRange hr x y, fun r c => (drawSprite_pixel s x y n r c).1,
    fun r c => (drawSprite_pixel s x y n r c).2, fun hset => ?collision, fun hclear => ?noCollision,
    fun r hr => ?others, rfl,
    ((s.setFb_onlyChanges _).append (State.setFlag_onlyChanges _ _)).append (State.advance_onlyChanges _)⟩
  case collision => rw [State.reg_advance, State.reg_setFlag, if_pos rfl, hhit.2 hset]; rfl
  case noCollision =>
    have hmiss : (s.drawSprite x y (spriteBytes s n)).2 = false := Bool.eq_false_iff.2 fun h => by
      obtain ⟨r, c, hcover, hpixel⟩ := hhit.1 h
      cases (hclear r c hcover).symm.trans hpixel
    rw [State.reg_advance, State.reg_setFlag, if_pos rfl, hmiss]; rfl
  case others => rw [State.reg_advance, State.reg_setFlag, if_neg hr, State.reg_setFb]

/-- What a sprite covers depends on memory, I, the two coordinate registers and the configuration. -/
theorem spriteCovers_congr {s t : State} {x y : RegIdx} (n : Nibble) (hmem : ∀ a, t.mem.read a = s.mem.read a)
    (hi : t.i = s.i) (hcfg : t.cfg = s.cfg) (hx : t.reg x = s.reg x) (hy : t.reg y = s.reg y) (r : Fin 32) (c : Fin 64) :
    SpriteCovers t x y n r c ↔ SpriteCovers s x y n r c := by
  simp only [SpriteCovers, itemCell, hmem, hi, hcfg, hx, hy]

/-- Settles O41: both draws cover the same pixels, so that the second complements what the first complemented. -/
theorem drawingTwiceRestoresTheScreen : Obligations.DrawingTwiceRestoresTheScreen := by
  unfold Obligations.DrawingTwiceRestoresTheScreen
  intro s t u x y n hx hy hr hst htu
  obtain ⟨t', ht', hcovered, huncovered, -, -, hregs, -, hframe⟩ := (drwXorsSpriteAndSetsCollision s x y n).1 hr
  cases ht'.symm.trans hst
  have hcovers (r : Fin 32) (c : Fin 64) : SpriteCovers t x y n r c ↔ SpriteCovers s x y n r c :=
    spriteCovers_congr n (hframe.2 .mem (by simp)) (hframe.2 .index (by simp)) hframe.cfg (hregs x hx) (hregs y hy) r c
  have hr' : InRange t n.toNat := by
    rw [inRange_iff, hframe.cfg, show t.i = s.i from hframe.2 .index (by simp)]
    exact (inRange_iff s _).1 hr
  obtain ⟨u', hu', hcovered', huncovered', hset, hclear, -⟩ := (drwXorsSpriteAndSetsCollision t x y n).1 hr'
  cases hu'.symm.trans htu
  refine ⟨fun r c => ?pixels, fun ⟨r, c, hc, hp⟩ => hset ⟨r, c, (hcovers r c).2 hc, ?_⟩,
    fun hall => hclear fun r c hc => ?_⟩
  case pixels =>
    by_cases hc : SpriteCovers s x y n r c
    · rw [hcovered' r c ((hcovers r c).2 hc), hcovered r c hc, Bool.not_not]
    · rw [huncovered' r c (mt (hcovers r c).1 hc), huncovered r c hc]
  · rw [hcovered r c hc, hp]; rfl
  · have hc' := (hcovers r c).1 hc
    rw [hcovered r c hc', hall r c hc']; rfl

end Sys2Proof.Machine
end
